-- ==== Sys2Proof/Word.lean ====
section
/-! DEFINITION. The word types of the block: 1-bit levels, 8-bit bytes, 16-bit operation words, input numbers. -/
namespace Sys2Proof

/-- A 2-valued line level: high is `true` (1), low is `false` (0) (00_scope.md R9, R10). -/
abbrev Level := Bool

/-- A byte, bit 0 the least significant (00_scope.md R12). -/
abbrev Byte := BitVec 8

/-- An operation word, `OP[15:12] IDX[11:8] DATA[7:0]` (30_encoding.md R60). -/
abbrev Word := BitVec 16

/-- The number of an aggregator input, as the 4-bit `IDX` field can name it (30_encoding.md R64). -/
abbrev SrcIdx := Fin 16

end Sys2Proof
end

