-- ==== Sys2Proof/Config.lean ====
section
/-! DEFINITION. What an instance of the block is built with (00_scope.md R8, 10_state.md R20 to R23), and the one
value the spec leaves free. -/
namespace Sys2Proof

/-- The order in which the bits of a byte are transmitted and received (10_state.md R21). -/
inductive BitOrder where
  | msbFirst
  | lsbFirst
deriving DecidableEq, Repr

/-! ## Clients -/

/-- A call of a client's handler by the transceiver (41_bit_engine.md R143). -/
inductive HandlerCall where
  | onSelect
  | onDeselect
  | onByteExchanged (rx : Byte)
deriving DecidableEq, Repr

/-- What a client handler must not do (41_bit_engine.md R146): a line operation, KBD, RST, or a call of the
transceiver's handlers again. -/
inductive ReentrantCall where
  | sel | clk | mosi | arm | kbd | rst | handler
deriving DecidableEq, Repr

/-- What a handler of a client does to the block: `AGG.set_source(i, v)` (41_bit_engine.md R143), or something R146
forbids. -/
inductive ClientAction where
  | setSource (i : SrcIdx) (raw : Level)
  | reenter (what : ReentrantCall)
deriving DecidableEq, Repr

/-- What one handler call does: its actions in order, and its result, which only `on_byte_exchanged` has
(41_bit_engine.md R143). -/
structure HandlerRun where
  actions : List ClientAction
  reply : Option Byte
deriving DecidableEq, Repr

/-- One line of a client's transition table: in own state `state`, the call `call` does `run` and leaves own state
`next`. -/
structure ClientRow where
  state : Nat
  call : HandlerCall
  run : HandlerRun
  next : Nat
deriving DecidableEq, Repr

/-- A client as a state machine (41_bit_engine.md R143): its own state is a number, `start` at reset, and a table says
what each handler call does in each own state. A call with no line does nothing, returns `none` and keeps the own
state, as the null client's does (log 7). -/
structure ClientScript where
  start : Nat
  rows : List ClientRow
deriving DecidableEq, Repr

/-- `CLIENT` (00_scope.md R8): the null client (41_bit_engine.md R145), the keyboard reference client
(42_keyboard_client.md), or any client of R143, given by its transition table. -/
inductive Client where
  | null
  | keyboard
  | scripted (p : ClientScript)
deriving DecidableEq, Repr

/-! ## Parameters -/

/-- The transceiver's parameters (00_scope.md R8). -/
structure SpiConfig where
  /-- `MODE`, 2 bits: `CPOL = MODE[1]`, `CPHA = MODE[0]` (10_state.md R20). -/
  mode : BitVec 2
  /-- `BIT_ORDER` (10_state.md R21). -/
  bitOrder : BitOrder
  /-- `CLIENT`. -/
  client : Client
  /-- `KBD_SRC`: the aggregator input the keyboard client drives (42_keyboard_client.md R180). -/
  kbdSrc : SrcIdx
deriving DecidableEq, Repr

/-- The aggregator's parameters (00_scope.md R8). -/
structure AggConfig where
  /-- `N_SRC`, 1 to 16. -/
  nSrc : Nat
  /-- `SRC_NAME[i]`, the first for input 0; no effect on behaviour (43_interrupt_aggregator.md R200). -/
  srcName : List String
  /-- `INV[i]`: `true` means input i is active-low (43_interrupt_aggregator.md R201). -/
  inv : Vector Level 16
  /-- `OUT_ACTIVE_LOW`: polarity of the output pin (43_interrupt_aggregator.md R206). -/
  outActiveLow : Level
deriving DecidableEq, Repr

/-- The configuration of one block, "set at construction, not runtime-mutable" (10_state.md R23). -/
structure Config where
  spi : SpiConfig
  agg : AggConfig
deriving DecidableEq, Repr

/-- `KBD_UNKNOWN_RESPONSE` (00_scope.md R8, 42_keyboard_client.md R179): "a draw, any byte". The n-th draw of a run is
this constant at n. It has no body, so nothing can be proved of its value (log 5). -/
opaque Config.kbdUnknownResponse : Nat → Byte

/-- The configuration of the instance that `State.reset` starts: a DESIGN CHOICE (log 1). Every statement of this
package is about every configuration. -/
def Config.atReset : Config where
  spi := { mode := 0, bitOrder := .msbFirst, client := .keyboard, kbdSrc := 0 }
  agg := { nSrc := 16, srcName := List.replicate 16 "", inv := Vector.replicate 16 false, outActiveLow := false }

end Sys2Proof
end

