-- ==== Sys2Proof/Syntax.lean ====
section
/-! DEFINITION. The operations of the block (00_scope.md R11, 30_encoding.md R65): one constructor per row of the
opcode table. -/
namespace Sys2Proof

/-- One host operation, its operands already assembled (30_encoding.md R62 to R64). -/
inductive Instr where
  /-- SEL, `write_select(level)` (40_line_ops.md R100). -/
  | sel (level : Level)
  /-- CLK, `write_clock(level)` (40_line_ops.md R101). -/
  | clk (level : Level)
  /-- MOSI, `write_mosi(level)` (40_line_ops.md R102). -/
  | mosi (level : Level)
  /-- MISO, `read_miso()` (40_line_ops.md R103). -/
  | miso
  /-- ARM, `set_miso_byte(byte)` (40_line_ops.md R104). -/
  | arm (b : Byte)
  /-- SRC, `set_source(name, asserted)` (43_interrupt_aggregator.md R202). -/
  | src (i : SrcIdx) (raw : Level)
  /-- IRQ, a read of the aggregate output (43_interrupt_aggregator.md R205). -/
  | irq
  /-- KBD, `keyboard_scancode_ready(byte)` (42_keyboard_client.md R183). -/
  | kbd (b : Byte)
  /-- RST, reset (70_reset_and_hazards.md R260). -/
  | rst
deriving DecidableEq, Repr

end Sys2Proof
end

