-- ==== Sys2Proof/WellFormed.lean ====
section
/-! DEFINITION. Which configurations an instance may be built with (00_scope.md R8), and which operations an instance
has (30_encoding.md R66, items 4 and 5). -/
namespace Sys2Proof

/-- The aggregator's parameters lie in the ranges of 00_scope.md R8: `N_SRC` in 1..16, one name per input, and no
polarity for an input that does not exist. -/
def AggConfig.valid (c : AggConfig) : Bool :=
  decide (1 ≤ c.nSrc) && decide (c.nSrc ≤ 16) && decide (c.srcName.length = c.nSrc) &&
    (List.finRange 16).all fun i => decide (i.val < c.nSrc) || !c.inv[i]

/-- All parameters lie in the ranges of 00_scope.md R8: `KBD_SRC` names an input of the aggregator. -/
def Config.valid (c : Config) : Bool :=
  c.agg.valid && decide (c.spi.kbdSrc.val < c.agg.nSrc)

/-- The instance has this operation: SRC names an input it has, KBD needs the keyboard client (30_encoding.md R66). -/
def Instr.wf (c : Config) : Instr → Bool
  | .sel _ => true
  | .clk _ => true
  | .mosi _ => true
  | .miso => true
  | .arm _ => true
  | .src i _ => decide (i.val < c.agg.nSrc)
  | .irq => true
  | .kbd _ => decide (c.spi.client = .keyboard)
  | .rst => true

end Sys2Proof
end

