-- ==== Sys2Proof/Decode.lean ====
section
/-! DEFINITION. Decoding and encoding of operation words (30_encoding.md R60 to R68), the opcode table (R65), and the
configuration word `CFG` (10_state.md R22). -/
namespace Sys2Proof

/-! ## Fields and operands -/

/-- `OP`, bits 15:12 (30_encoding.md R60). -/
def opField (w : Word) : BitVec 4 := w.extractLsb' 12 4

/-- `IDX`, bits 11:8 (30_encoding.md R60). -/
def idxField (w : Word) : BitVec 4 := w.extractLsb' 8 4

/-- `DATA`, bits 7:0 (30_encoding.md R60). -/
def dataField (w : Word) : Byte := w.extractLsb' 0 8

/-- A word from its three fields (30_encoding.md R60). -/
def wordOf (op idx : BitVec 4) (data : Byte) : Word := (op ++ idx) ++ data

/-- A level operand is `bool(DATA)` (30_encoding.md R62, 00_scope.md R10). -/
def levelOperand (data : Byte) : Level := decide (data ≠ 0)

/-- An index operand is `IDX` as an unsigned number (30_encoding.md R64). -/
def indexOperand (idx : BitVec 4) : SrcIdx := idx.toFin

/-- The assembler writes a level as `DATA` = 0x00 or 0x01 (30_encoding.md R69). -/
def levelData (level : Level) : Byte := if level then 1 else 0

/-! ## Decoding -/

/-- Why a word is refused (30_encoding.md R66). -/
inductive Reject where
  | reservedOpcode
  | reservedField
  | noSuchSource
  | noKeyboardClient
deriving DecidableEq, Repr

/-- Formats L and B: `IDX` is reserved and must be 0 (30_encoding.md R61; R66 item 2). -/
def decodeData (w : Word) (mk : Byte → Instr) : Except Reject Instr :=
  if idxField w = 0 then .ok (mk (dataField w)) else .error .reservedField

/-- Format N: `IDX` and `DATA` are reserved and must be 0 (30_encoding.md R61; R66 items 2 and 3). -/
def decodeNone (w : Word) (i : Instr) : Except Reject Instr :=
  if idxField w = 0 ∧ dataField w = 0 then .ok i else .error .reservedField

/-- Format S: the input named by `IDX` must exist (30_encoding.md R61, R64; R66 item 4). -/
def decodeSrc (c : Config) (w : Word) : Except Reject Instr :=
  let i := indexOperand (idxField w)
  if i.val < c.agg.nSrc then .ok (.src i (levelOperand (dataField w))) else .error .noSuchSource

/-- KBD: format B, and the keyboard client must be attached (30_encoding.md R66 items 2 and 5, in that order: log 4). -/
def decodeKbd (c : Config) (w : Word) : Except Reject Instr :=
  if idxField w = 0 then
    if c.spi.client = .keyboard then .ok (.kbd (dataField w)) else .error .noKeyboardClient
  else .error .reservedField

/-- The decoder, total on every 16-bit word (30_encoding.md R65, R66). -/
def decode (c : Config) (w : Word) : Except Reject Instr :=
  match (opField w).toNat with
  | 0x1 => decodeData w fun d => .sel (levelOperand d)
  | 0x2 => decodeData w fun d => .clk (levelOperand d)
  | 0x3 => decodeData w fun d => .mosi (levelOperand d)
  | 0x4 => decodeNone w .miso
  | 0x5 => decodeData w .arm
  | 0x6 => decodeSrc c w
  | 0x7 => decodeNone w .irq
  | 0x8 => decodeKbd c w
  | 0xF => decodeNone w .rst
  | _ => .error .reservedOpcode

/-! ## Encoding -/

/-- The word the assembler writes for an operation (30_encoding.md R60, R65, R69). -/
def encode : Instr → Word
  | .sel v => wordOf 0x1 0 (levelData v)
  | .clk v => wordOf 0x2 0 (levelData v)
  | .mosi v => wordOf 0x3 0 (levelData v)
  | .miso => wordOf 0x4 0 0
  | .arm b => wordOf 0x5 0 b
  | .src i v => wordOf 0x6 (BitVec.ofFin i) (levelData v)
  | .irq => wordOf 0x7 0 0
  | .kbd b => wordOf 0x8 0 b
  | .rst => wordOf 0xF 0 0

/-- The word with its level operand, if it has one, rewritten as the assembler writes it: what re-encoding a decoded
word gives (30_encoding.md R70). -/
def canonicalLevel (w : Word) : Word :=
  match (opField w).toNat with
  | 0x1 | 0x2 | 0x3 | 0x6 => wordOf (opField w) (idxField w) (levelData (levelOperand (dataField w)))
  | _ => w

/-! ## The opcode table -/

/-- The rows of the opcode map (30_encoding.md R65). -/
inductive Mnemonic where
  | SEL | CLK | MOSI | MISO | ARM | SRC | IRQ | KBD | RST
deriving DecidableEq, Repr

/-- A row of the opcode map: the fixed bits of an operation (30_encoding.md R65). -/
structure OpcodeRow where
  mnemonic : Mnemonic
  fixedBits : Word
  mask : Word
deriving DecidableEq, Repr

/-- The opcode map, as 30_encoding.md R65 lists it (`fixedBits` is its column "match"). -/
def opcodeTable : List OpcodeRow :=
  [⟨.SEL, 0x1000, 0xFF00⟩, ⟨.CLK, 0x2000, 0xFF00⟩, ⟨.MOSI, 0x3000, 0xFF00⟩, ⟨.MISO, 0x4000, 0xFFFF⟩,
   ⟨.ARM, 0x5000, 0xFF00⟩, ⟨.SRC, 0x6000, 0xF000⟩, ⟨.IRQ, 0x7000, 0xFFFF⟩, ⟨.KBD, 0x8000, 0xFF00⟩,
   ⟨.RST, 0xF000, 0xFFFF⟩]

/-- "A word is the operation whose `(word & mask) == match`" (30_encoding.md R65). -/
def OpcodeRow.covers (r : OpcodeRow) (w : Word) : Bool := w &&& r.mask == r.fixedBits

/-- The row of the opcode map an operation stands for. -/
def Instr.mnemonic : Instr → Mnemonic
  | .sel _ => .SEL
  | .clk _ => .CLK
  | .mosi _ => .MOSI
  | .miso => .MISO
  | .arm _ => .ARM
  | .src _ _ => .SRC
  | .irq => .IRQ
  | .kbd _ => .KBD
  | .rst => .RST

/-! ## Word streams -/

/-- A word as two bytes, big-endian: "the high byte holds `OP` and `IDX`" (30_encoding.md R68). -/
def bytesOfWord (w : Word) : List Byte := [w.extractLsb' 8 8, w.extractLsb' 0 8]

/-- The next word of a big-endian byte stream, and the rest of it (30_encoding.md R68); none on fewer than two bytes. -/
def takeWord : List Byte → Option (Word × List Byte)
  | hi :: lo :: rest => some (hi ++ lo, rest)
  | _ => none

/-- Why no operation can be read from a byte stream: it holds no whole word (log 13), or its word is refused. -/
inductive StreamReject where
  | truncated
  | word (r : Reject)
deriving DecidableEq, Repr

/-- The next operation of a byte stream and the rest of it; total on any bytes (30_encoding.md R66 to R68). -/
def decodeBytes (c : Config) (bs : List Byte) : Except StreamReject (Instr × List Byte) :=
  match takeWord bs with
  | none => .error .truncated
  | some (w, rest) =>
    match decode c w with
    | .ok i => .ok (i, rest)
    | .error r => .error (.word r)

/-- A list of words as a byte stream (30_encoding.md R68). -/
def bytesOfWords : List Word → List Byte
  | [] => []
  | w :: ws => bytesOfWord w ++ bytesOfWords ws

/-- The whole words of a byte stream, in order (30_encoding.md R68). -/
def wordsOfBytes : List Byte → List Word
  | hi :: lo :: rest => (hi ++ lo) :: wordsOfBytes rest
  | _ => []

/-- The operation word that the host's opcode-table word (nbits bits of w, the rest 0) stands for. -/
def tableWord (nbits w : Nat) : Word := BitVec.ofNat 16 (w % 2 ^ nbits)

/-- The instruction the decoder reads from the opcode table's word, laid out as the stream stores it, for the instance
that `State.reset` starts. -/
def decodeTableWord (nbits w : Nat) : Option Instr :=
  match decodeBytes Config.atReset (bytesOfWord (tableWord nbits w)) with
  | .ok (i, _) => some i
  | .error _ => none

/-! ## The configuration word -/

/-- The view `CFG` of the configuration: bit 0 CPHA, bit 1 CPOL, bit 2 LSBF, bits 7:3 reserved as 0 (10_state.md R22). -/
def SpiConfig.cfgWord (c : SpiConfig) : Byte :=
  ((0 : BitVec 5) ++ BitVec.ofBool (decide (c.bitOrder = .lsbFirst))) ++ c.mode

/-- Construction from a `CFG` word: "a `CFG` with a nonzero reserved bit is refused at construction" (10_state.md R22). -/
def SpiConfig.withCfgWord (c : SpiConfig) (w : Byte) : Option SpiConfig :=
  if w.extractLsb' 3 5 = 0 then
    some { c with
      mode := w.extractLsb' 0 2
      bitOrder := if w.getLsbD 2 then .lsbFirst else .msbFirst }
  else none

end Sys2Proof
end

