-- ==== Sys2Proof/Machine/Flags.lean ====
section
/-! DEFINITION. The aggregator's status bits: polarity stage, wired-OR, output pin, packed view
(43_interrupt_aggregator.md R201, R203, R206; 10_state.md R35). -/
namespace Sys2Proof.Machine

/-- Input i exists: `i < N_SRC` (30_encoding.md R64). -/
def hasSource (c : AggConfig) (i : SrcIdx) : Bool := decide (i.val < c.nSrc)

/-- The polarity stage: `raw ^ INV[i]` (43_interrupt_aggregator.md R201). -/
def logicalFlag (c : AggConfig) (i : SrcIdx) (raw : Level) : Level := raw ^^ c.inv[i]

/-- `flag[0] | ... | flag[N_SRC-1]` (43_interrupt_aggregator.md R203). -/
def wiredOr (c : AggConfig) (flag : Vector Level 16) : Level :=
  (List.finRange 16).any fun i => hasSource c i && flag[i]

/-- The physical output pin, `agg ^ OUT_ACTIVE_LOW` (43_interrupt_aggregator.md R206). -/
def outputPin (c : AggConfig) (agg : Level) : Level := agg ^^ c.outActiveLow

/-- The packed view `IRQ_FLAGS`, input i at bit i; a bit with no input is 0 (10_state.md R35). -/
def irqFlags (c : AggConfig) (flag : Vector Level 16) : BitVec 16 :=
  (BitVec.ofBoolListLE ((List.finRange 16).map fun i => hasSource c i && flag[i])).setWidth 16

end Sys2Proof.Machine
end

