-- ==== Sys2Proof/Machine/Operands.lean ====
section
/-! DEFINITION. The mode/phase selector (41_bit_engine.md R130 to R133) and the bit-order helpers (R134 to R137). -/
namespace Sys2Proof.Machine

/-- `CPOL = MODE[1]` (10_state.md R20). -/
def cpol (c : SpiConfig) : Level := c.mode.getLsbD 1

/-- `CPHA = MODE[0]` (10_state.md R20). -/
def cpha (c : SpiConfig) : Level := c.mode.getLsbD 0

/-- The own state a client starts in: its table's `start`, and 0 where the client has no table (70_reset_and_hazards.md
R260). -/
def clientStart : Client → Nat
  | .null => 0
  | .keyboard => 0
  | .scripted p => p.start

/-- `IDLE = CPOL` (41_bit_engine.md R130). -/
def idle (c : SpiConfig) : Level := cpol c

/-- `ACT = 1 - CPOL` (41_bit_engine.md R130). -/
def act (c : SpiConfig) : Level := !cpol c

/-- A qualifying edge to `level` is leading when `level = ACT`, else trailing (41_bit_engine.md R132). -/
def isLeading (c : SpiConfig) (level : Level) : Bool := level == act c

/-- The role of a qualifying edge: `true` for a sample edge, `false` for a shift edge (41_bit_engine.md R133). -/
def isSampleEdge (c : SpiConfig) (level : Level) : Bool :=
  (isLeading c level && !cpha c) || (!isLeading c level && cpha c)

/-- `head(s)`: the bit of s transmitted first (41_bit_engine.md R134). -/
def head (o : BitOrder) (s : Byte) : Level :=
  match o with
  | .msbFirst => s.getLsbD 7
  | .lsbFirst => s.getLsbD 0

/-- `adv(s)`: s advanced by one bit, filled with 0 (41_bit_engine.md R135). -/
def adv (o : BitOrder) (s : Byte) : Byte :=
  match o with
  | .msbFirst => s <<< 1
  | .lsbFirst => s >>> 1

/-- A level as a byte, `zext_8(v)` (00_scope.md R13). -/
def levelByte (v : Level) : Byte := (BitVec.ofBool v).setWidth 8

/-- `shin(s, v)`: received bit v shifted into s (41_bit_engine.md R136). -/
def shin (o : BitOrder) (s : Byte) (v : Level) : Byte :=
  match o with
  | .msbFirst => (s <<< 1) ||| levelByte v
  | .lsbFirst => (s >>> 1) ||| (levelByte v <<< 7)

/-- `out(s, k)`: the k-th bit of s in transmission order, from 0 (41_bit_engine.md R137). -/
def out (o : BitOrder) (s : Byte) (k : Fin 8) : Level :=
  match o with
  | .msbFirst => s.getLsbD (7 - k.val)
  | .lsbFirst => s.getLsbD k.val

/-- `adv^n(s)`. -/
def advN (o : BitOrder) : Nat → Byte → Byte
  | 0, s => s
  | n + 1, s => advN o n (adv o s)

/-- Successive `shin` steps, the first bit of the list first. -/
def shinAll (o : BitOrder) : Byte → List Level → Byte
  | s, [] => s
  | s, v :: vs => shinAll o (shin o s v) vs

/-- The bits of a byte in transmission order, `out(s, 0)` first (41_bit_engine.md R137). -/
def outBits (o : BitOrder) (s : Byte) : List Level := (List.finRange 8).map (out o s)

end Sys2Proof.Machine
end

