-- ==== Sys2Proof/Machine/State.lean ====
section
/-! DEFINITION. The state of the block (10_state.md R24 to R36, 42_keyboard_client.md R171), its faults and refusals
(60_exceptions.md R231), and the state after reset (70_reset_and_hazards.md R260, R262). -/
namespace Sys2Proof.Machine

/-- The four line levels (10_state.md R24 to R28). -/
structure LineState where
  /-- 1 = selected (R25). -/
  sel : Level
  /-- The clock level last accepted (R26). -/
  clk : Level
  /-- The MOSI level last accepted (R27). -/
  mosi : Level
  /-- The level the block drives (R28). -/
  miso : Level
deriving DecidableEq, Repr

/-- The exchange state (10_state.md R29 to R32). The counts are the spec's "integer in 0..8". -/
structure ExchangeState where
  recvShift : Byte
  sendShift : Byte
  recvCount : Nat
  sendCount : Nat
deriving DecidableEq, Repr

/-- The aggregator's state (10_state.md R33, R34). A place `i >= N_SRC` of `flag` is no input (log 9). -/
structure AggregatorState where
  flag : Vector Level 16
  agg : Level
deriving DecidableEq, Repr

/-- `kstate` (42_keyboard_client.md R171). -/
inductive KState where
  | notSelected
  | newlySelected
  | readyToRead
  | readyToRespond
  | done
deriving DecidableEq, Repr

/-- The keyboard reference client's state (42_keyboard_client.md R171). -/
structure KeyboardState where
  kstate : KState
  scancodeBuffer : Byte
  bufferFull : Level
  kirq : Level
deriving DecidableEq, Repr

/-- The events of the output trace (10_state.md R36). `misoRead` and `irqRead` carry the result their operation
returns (log 12). -/
inductive Event where
  | selected
  | deselected
  | byteExchanged (b : Byte)
  | irqChange (v : Level)
  | misoRead (v : Level)
  | irqRead (v : Level)
deriving DecidableEq, Repr

/-- The state of one block. -/
structure State where
  /-- The configuration; no operation writes it (10_state.md R23; log 1). -/
  cfg : Config
  line : LineState
  xchg : ExchangeState
  aggr : AggregatorState
  kbd : KeyboardState
  /-- The output trace, the first event first (10_state.md R36). -/
  trace : List Event
  /-- The own state of a client given by its transition table (41_bit_engine.md R143; log 7). -/
  clientState : Nat
  /-- The model's own: how many draws of `Config.kbdUnknownResponse` were made (log 5). -/
  draws : Nat
  /-- The model's own: the host's operation words not yet applied, the next one first (30_encoding.md R68; log 2). -/
  pending : List Word
deriving DecidableEq, Repr

/-- The model's one fault (60_exceptions.md R231). -/
inductive Fault where
  /-- Raised when a scripted client's handler does what 41_bit_engine.md R146 forbids. Safe: the spec gives the
  block no behaviour there. -/
  | reentrantLineOperation
deriving DecidableEq, Repr

/-- The model's refusals (60_exceptions.md R231). -/
inductive Refusal where
  /-- Raised by `exec` alone, for an operation with no meaning yet (none). Safe. -/
  | notModelled (mnemonic : String)
  /-- Raised by `step` on a word whose `OP` is reserved (30_encoding.md R66 item 1). Safe: the spec gives the word no
  meaning. -/
  | reservedOpcode
  /-- Raised by `step` on a word with a nonzero reserved field (30_encoding.md R66 items 2, 3). Safe, as above. -/
  | reservedField
  /-- Raised by `step` on SRC, and by `AGG.set_source`, for an input the instance does not have (30_encoding.md R66
  item 4; log 8). Safe, as above. -/
  | noSuchSource
  /-- Raised by `step` and by KBD when the keyboard client is not attached (30_encoding.md R66 item 5). Safe, as
  above. -/
  | noKeyboardClient
deriving DecidableEq, Repr

/-- The keyboard client's reset state (42_keyboard_client.md R171, R184). -/
def KeyboardState.reset : KeyboardState where
  kstate := .notSelected
  scancodeBuffer := 0
  bufferFull := false
  kirq := false

/-- The state of a new instance built with configuration c (70_reset_and_hazards.md R260, R262). -/
def State.ofConfig (c : Config) : State where
  cfg := c
  line := { sel := false, clk := cpol c.spi, mosi := false, miso := false }
  xchg := { recvShift := 0, sendShift := 0, recvCount := 0, sendCount := 0 }
  aggr := { flag := Vector.replicate 16 false, agg := false }
  kbd := KeyboardState.reset
  trace := []
  clientState := clientStart c.spi.client
  draws := 0
  pending := []

/-- The machine right after reset: the instance of `Config.atReset` (log 1). -/
def State.reset : State := State.ofConfig Config.atReset

end Sys2Proof.Machine
end

