-- ==== Sys2Proof/Machine/Ops.lean ====
section
/-! DEFINITION. The named operations over the state: register updates, events, the aggregator's input operation
(43_interrupt_aggregator.md R202, R203), arming a byte (40_line_ops.md R104), and the fetch of the next word.

The block takes no exception and returns from none (60_exceptions.md R230, R236, R237): its only interrupt action is
`recompute`. -/
namespace Sys2Proof.Machine

/-! ## Register updates -/

def setSel (v : Level) (s : State) : State := { s with line := { s.line with sel := v } }

def setClk (v : Level) (s : State) : State := { s with line := { s.line with clk := v } }

def setMosi (v : Level) (s : State) : State := { s with line := { s.line with mosi := v } }

def setMiso (v : Level) (s : State) : State := { s with line := { s.line with miso := v } }

def setRecvShift (b : Byte) (s : State) : State := { s with xchg := { s.xchg with recvShift := b } }

def setSendShift (b : Byte) (s : State) : State := { s with xchg := { s.xchg with sendShift := b } }

def setRecvCount (n : Nat) (s : State) : State := { s with xchg := { s.xchg with recvCount := n } }

def setSendCount (n : Nat) (s : State) : State := { s with xchg := { s.xchg with sendCount := n } }

def setFlag (i : SrcIdx) (v : Level) (s : State) : State :=
  { s with aggr := { s.aggr with flag := s.aggr.flag.set i v } }

def setAgg (v : Level) (s : State) : State := { s with aggr := { s.aggr with agg := v } }

def setKbd (k : KeyboardState) (s : State) : State := { s with kbd := k }

def setClientState (q : Nat) (s : State) : State := { s with clientState := q }

def setDraws (n : Nat) (s : State) : State := { s with draws := n }

def setPending (ws : List Word) (s : State) : State := { s with pending := ws }

/-- `emit E`: append an event to the output trace (00_scope.md R15). -/
def emit (e : Event) (s : State) : State := { s with trace := s.trace ++ [e] }

/-! ## Outcomes -/

/-- Go on with f after a next state; a fault or a refusal ends the operation. -/
def andThen {α β : Type} (o : Host.Outcome α Fault Refusal) (f : α → Host.Outcome β Fault Refusal) :
    Host.Outcome β Fault Refusal :=
  match o with
  | .next a => f a
  | .fault r => .fault r
  | .refused r => .refused r

/-- The refusal that a decoder's reason stands for (30_encoding.md R66). -/
def refusalOf : Reject → Refusal
  | .reservedOpcode => .reservedOpcode
  | .reservedField => .reservedField
  | .noSuchSource => .noSuchSource
  | .noKeyboardClient => .noKeyboardClient

/-! ## The aggregator -/

/-- RECOMPUTE (43_interrupt_aggregator.md R203, R204). -/
def recompute (s : State) : State :=
  let new := wiredOr s.cfg.agg s.aggr.flag
  if new = s.aggr.agg then s else emit (.irqChange new) (setAgg new s)

/-- `set_source`: the effect of SRC and of a client's `AGG.set_source` (43_interrupt_aggregator.md R202, R211). -/
def setSource (i : SrcIdx) (raw : Level) (s : State) : Host.Outcome State Fault Refusal :=
  if hasSource s.cfg.agg i then .next (recompute (setFlag i (logicalFlag s.cfg.agg i raw) s))
  else .refused .noSuchSource

/-! ## Arming -/

/-- Load `send_shift` and drive its first bit (40_line_ops.md R104; a client's reply, 41_bit_engine.md R144). -/
def armByte (b : Byte) (s : State) : State :=
  setMiso (head s.cfg.spi.bitOrder b) (setSendShift b s)

/-! ## Fetch -/

/-- The next operation word the host applies, and the state with it taken (30_encoding.md R68; log 2). -/
def fetch (s : State) : Option (Word × State) :=
  match s.pending with
  | [] => none
  | w :: ws => some (w, setPending ws s)

/-! ## Observation -/

/-- What a model exposes after every operation: `miso` and `agg` (10_state.md R36). -/
def exposed (s : State) : Level × Level := (s.line.miso, s.aggr.agg)

/-- The level of the interrupt output pin (43_interrupt_aggregator.md R206). -/
def irqPin (s : State) : Level := outputPin s.cfg.agg s.aggr.agg

end Sys2Proof.Machine
end

