-- ==== Sys2Proof/Machine/Aggregator.lean ====
section
/-! DEFINITION. The aggregator's operations SRC and IRQ (43_interrupt_aggregator.md R202, R205). -/
namespace Sys2Proof.Machine

/-- SRC (43_interrupt_aggregator.md R202). -/
def execSrc (i : SrcIdx) (raw : Level) (s : State) : Host.Outcome State Fault Refusal :=
  setSource i raw s

/-- IRQ (43_interrupt_aggregator.md R205). -/
def execIrq (s : State) : Host.Outcome State Fault Refusal :=
  .next (emit (.irqRead s.aggr.agg) s)

end Sys2Proof.Machine
end

