-- ==== Sys2Proof/Machine/Client.lean ====
section
/-! DEFINITION. The client interface (41_bit_engine.md R143 to R146) and the keyboard reference client's handlers
(42_keyboard_client.md R172 to R180). -/
namespace Sys2Proof.Machine

/-! ## The keyboard reference client -/

/-- SETIRQ(v): `kirq <- v`, then the raw pin level `kirq ^ INV[KBD_SRC]` to the aggregator (42_keyboard_client.md
R180). -/
def setKirq (v : Level) (s : State) : Host.Outcome State Fault Refusal :=
  setSource s.cfg.spi.kbdSrc (v ^^ s.cfg.agg.inv[s.cfg.spi.kbdSrc]) (setKbd { s.kbd with kirq := v } s)

/-- Empty the scancode buffer and deassert the interrupt (42_keyboard_client.md R175, R177). -/
def clearBuffer (s : State) : Host.Outcome State Fault Refusal :=
  setKirq false (setKbd { s.kbd with scancodeBuffer := 0, bufferFull := false } s)

/-- READ (42_keyboard_client.md R175): the reply is read before the clear. -/
def keyboardRead (s : State) : Host.Outcome (State × Byte) Fault Refusal :=
  andThen (clearBuffer (setKbd { s.kbd with kstate := .readyToRead } s)) fun t => .next (t, s.kbd.scancodeBuffer)

/-- `control(code)` (42_keyboard_client.md R177, R178, R179): reset, peek, or an unknown code, whose response is a
fresh draw of the free value. -/
def controlCode (code : BitVec 7) (s : State) : Host.Outcome (State × Byte) Fault Refusal :=
  if code = 0x00 then andThen (clearBuffer s) fun t => .next (t, 0x00)
  else if code = 0x01 then .next (s, if s.kbd.bufferFull then 0xFF else 0x00)
  else .next (setDraws (s.draws + 1) s, Config.kbdUnknownResponse s.draws)

/-- CONTROL (42_keyboard_client.md R176). -/
def keyboardControl (code : BitVec 7) (s : State) : Host.Outcome (State × Byte) Fault Refusal :=
  controlCode code (setKbd { s.kbd with kstate := .readyToRespond } s)

/-- The keyboard's `on_byte_exchanged(rx)` (42_keyboard_client.md R174). -/
def keyboardByte (rx : Byte) (s : State) : Host.Outcome (State × Byte) Fault Refusal :=
  match s.kbd.kstate with
  | .newlySelected => if rx.getLsbD 7 then keyboardControl (rx.extractLsb' 0 7) s else keyboardRead s
  | .readyToRead | .readyToRespond => .next (setKbd { s.kbd with kstate := .done } s, 0x00)
  | .done => .next (s, 0x00)
  | .notSelected => .next (s, 0x00)

/-! ## A client given by its transition table -/

/-- What the table says a handler call does in own state q, and the own state it leaves (41_bit_engine.md R143). -/
def scriptAnswer (p : ClientScript) (q : Nat) (call : HandlerCall) : HandlerRun × Nat :=
  match p.rows.find? fun r => decide (r.state = q ∧ r.call = call) with
  | some r => (r.run, r.next)
  | none => (⟨[], none⟩, q)

/-- A handler's actions in order (41_bit_engine.md R143): each `AGG.set_source` has the effect of SRC
(43_interrupt_aggregator.md R211); anything R146 forbids is the fault. -/
def runActions : List ClientAction → State → Host.Outcome State Fault Refusal
  | [], s => .next s
  | .setSource i raw :: rest, s => andThen (setSource i raw s) (runActions rest)
  | .reenter _ :: _, _ => .fault .reentrantLineOperation

/-- One handler call of a client given by its table: its own state and its actions, then its result (41_bit_engine.md
R143). -/
def scriptedCall (p : ClientScript) (call : HandlerCall) (s : State) : Host.Outcome (State × Option Byte) Fault Refusal :=
  let a := scriptAnswer p s.clientState call
  andThen (runActions a.1.actions (setClientState a.2 s)) fun t => .next (t, a.1.reply)

/-! ## The three handlers -/

/-- `CLIENT.on_select()` (41_bit_engine.md R143, R145; 42_keyboard_client.md R172). -/
def onSelect (s : State) : Host.Outcome State Fault Refusal :=
  match s.cfg.spi.client with
  | .null => .next s
  | .keyboard => .next (setKbd { s.kbd with kstate := .newlySelected } s)
  | .scripted p => andThen (scriptedCall p .onSelect s) fun r => .next r.1

/-- `CLIENT.on_deselect()` (41_bit_engine.md R143, R145; 42_keyboard_client.md R173). -/
def onDeselect (s : State) : Host.Outcome State Fault Refusal :=
  match s.cfg.spi.client with
  | .null => .next s
  | .keyboard => .next (setKbd { s.kbd with kstate := .notSelected } s)
  | .scripted p => andThen (scriptedCall p .onDeselect s) fun r => .next r.1

/-- `CLIENT.on_byte_exchanged(rx)` (41_bit_engine.md R143, R145; 42_keyboard_client.md R174). -/
def onByteExchanged (rx : Byte) (s : State) : Host.Outcome (State × Option Byte) Fault Refusal :=
  match s.cfg.spi.client with
  | .null => .next (s, none)
  | .keyboard => andThen (keyboardByte rx s) fun r => .next (r.1, some r.2)
  | .scripted p => scriptedCall p (.onByteExchanged rx) s

end Sys2Proof.Machine
end

