-- ==== Sys2Proof/Machine/Keyboard.lean ====
section
/-! DEFINITION. The keyboard reference client's operation KBD (42_keyboard_client.md R183). -/
namespace Sys2Proof.Machine

/-- KBD (42_keyboard_client.md R183); refused when the keyboard client is not attached (30_encoding.md R66). -/
def execKbd (b : Byte) (s : State) : Host.Outcome State Fault Refusal :=
  if s.cfg.spi.client = .keyboard then
    setKirq true (setKbd { s.kbd with scancodeBuffer := b, bufferFull := true } s)
  else .refused .noKeyboardClient

end Sys2Proof.Machine
end

