-- ==== Sys2Proof/Machine/Engine.lean ====
section
/-! DEFINITION. The bit engine and byte framing (41_bit_engine.md R138 to R142). -/
namespace Sys2Proof.Machine

/-- SAMPLE (41_bit_engine.md R138). -/
def sample (s : State) : State :=
  setRecvCount (s.xchg.recvCount + 1) (setRecvShift (shin s.cfg.spi.bitOrder s.xchg.recvShift s.line.mosi) s)

/-- SHIFT: advance then drive when `CPHA = 0` (41_bit_engine.md R139), drive then advance when `CPHA = 1` (R140). -/
def shift (s : State) : State :=
  let advanced := adv s.cfg.spi.bitOrder s.xchg.sendShift
  let driven := if cpha s.cfg.spi then s.xchg.sendShift else advanced
  setSendCount (s.xchg.sendCount + 1)
    (setMiso (head s.cfg.spi.bitOrder driven) (setSendShift advanced s))

/-- What COMPLETE does before it calls the client (41_bit_engine.md R142). -/
def endByte (s : State) : State :=
  emit (.byteExchanged s.xchg.recvShift) (armByte 0 (setSendCount 0 (setRecvCount 0 s)))

/-- The client's result, applied after COMPLETE's own reset (41_bit_engine.md R142, R144). -/
def applyReply (r : State × Option Byte) : State :=
  match r.2 with
  | none => r.1
  | some b => armByte b r.1

/-- COMPLETE (41_bit_engine.md R142). -/
def complete (s : State) : Host.Outcome State Fault Refusal :=
  andThen (onByteExchanged s.xchg.recvShift (endByte s)) fun r => .next (applyReply r)

/-- Both counts are 8: the byte is whole (41_bit_engine.md R141). -/
def byteDone (s : State) : Bool := decide (s.xchg.recvCount = 8 ∧ s.xchg.sendCount = 8)

/-- SAMPLE or SHIFT, whichever the edge to `level` is (41_bit_engine.md R133, R141). -/
def bitAction (level : Level) (s : State) : State :=
  if isSampleEdge s.cfg.spi level then sample s else shift s

/-- EDGE(level) (41_bit_engine.md R141). -/
def edge (level : Level) (s : State) : Host.Outcome State Fault Refusal :=
  let t := bitAction level s
  if byteDone t then complete t else .next t

end Sys2Proof.Machine
end

