-- ==== Sys2Proof/Machine/LineOps.lean ====
section
/-! DEFINITION. The transceiver's line operations SEL, CLK, MOSI, MISO and ARM (40_line_ops.md R100 to R104). -/
namespace Sys2Proof.Machine

/-- SEL (40_line_ops.md R100). -/
def execSel (level : Level) (s : State) : Host.Outcome State Fault Refusal :=
  if level = s.line.sel then .next s
  else if level then onSelect (emit .selected (setSendCount 0 (setRecvCount 0 (setSel level s))))
  else onDeselect (emit .deselected (setSel level s))

/-- CLK, the clock-edge detector (40_line_ops.md R101). -/
def execClk (level : Level) (s : State) : Host.Outcome State Fault Refusal :=
  if s.line.sel = false then .next s
  else if level = s.line.clk then .next s
  else edge level (setClk level s)

/-- MOSI (40_line_ops.md R102). -/
def execMosi (level : Level) (s : State) : Host.Outcome State Fault Refusal :=
  if s.line.sel = false then .next s else .next (setMosi level s)

/-- MISO (40_line_ops.md R103). -/
def execMiso (s : State) : Host.Outcome State Fault Refusal :=
  .next (emit (.misoRead s.line.miso) s)

/-- ARM (40_line_ops.md R104). -/
def execArm (b : Byte) (s : State) : Host.Outcome State Fault Refusal :=
  .next (armByte b s)

end Sys2Proof.Machine
end

