-- ==== Sys2Proof/Machine/Reset.lean ====
section
/-! DEFINITION. Reset (70_reset_and_hazards.md R260, R261). -/
namespace Sys2Proof.Machine

/-- Every element of 10_state.md and the client's state at its reset value; no event, no handler, no aggregator call
(70_reset_and_hazards.md R260, R261; 42_keyboard_client.md R184). The configuration, the trace and the model's own
fields stay (logs 2, 5, 6). -/
def resetBlock (s : State) : State :=
  { s with
    line := { sel := false, clk := cpol s.cfg.spi, mosi := false, miso := false }
    xchg := { recvShift := 0x00, sendShift := 0x00, recvCount := 0, sendCount := 0 }
    aggr := { flag := Vector.replicate 16 false, agg := false }
    kbd := { kstate := .notSelected, scancodeBuffer := 0x00, bufferFull := false, kirq := false }
    clientState := clientStart s.cfg.spi.client }

/-- RST (70_reset_and_hazards.md R260). -/
def execRst (s : State) : Host.Outcome State Fault Refusal := .next (resetBlock s)

end Sys2Proof.Machine
end

