-- ==== Sys2Proof/Machine/Dispatch.lean ====
section
/-! DEFINITION. One arm per operation of the opcode table (30_encoding.md R65). -/
namespace Sys2Proof.Machine

def exec (i : Instr) (s : State) : Host.Outcome State Fault Refusal :=
  match i with
  | .sel level => Sys2Proof.Machine.execSel level s
  | .clk level => Sys2Proof.Machine.execClk level s
  | .mosi level => Sys2Proof.Machine.execMosi level s
  | .miso => Sys2Proof.Machine.execMiso s
  | .arm b => Sys2Proof.Machine.execArm b s
  | .src idx raw => Sys2Proof.Machine.execSrc idx raw s
  | .irq => Sys2Proof.Machine.execIrq s
  | .kbd b => Sys2Proof.Machine.execKbd b s
  | .rst => Sys2Proof.Machine.execRst s

end Sys2Proof.Machine
end

