-- ==== Sys2Proof/Machine/Step.lean ====
section
/-! DEFINITION. One step: the next host operation, decoded and run to completion (20_memory.md R54, R56;
30_encoding.md R66 to R68). -/
namespace Sys2Proof.Machine

/-- Apply the next pending word. With none pending the block is idle: "its state is held unchanged"
(60_exceptions.md R244; log 2). A refused word has no meaning (30_encoding.md R66; log 3). -/
def step (s : State) : Host.Outcome State Fault Refusal :=
  match fetch s with
  | none => .next s
  | some (w, t) =>
    match decode t.cfg w with
    | .ok i => exec i t
    | .error r => .refused (refusalOf r)

/-- s with one more operation word from the host, the next to be applied (log 2). -/
def State.withFetchWord (s : State) (nbits w : Nat) : State :=
  setPending (tableWord nbits w :: s.pending) s

end Sys2Proof.Machine
end

