-- ==== Sys2Proof/Machine/Assembler.lean ====
section
/-! DEFINITION. Assembler text, pseudo-operations and disassembly (30_encoding.md R69 to R75). Text is a list of
characters; what the spec leaves open about spacing is in log 14. -/
namespace Sys2Proof.Machine

/-! ## Pseudo-operations -/

/-- `CYC v` (30_encoding.md R71). -/
def cyc (c : SpiConfig) (v : Level) : List Instr := [.mosi v, .clk (act c), .clk (idle c)]

/-- `CYCR v` (30_encoding.md R72). -/
def cycr (c : SpiConfig) (v : Level) : List Instr :=
  if cpha c then [.mosi v, .clk (act c), .miso, .clk (idle c)]
  else [.mosi v, .miso, .clk (act c), .clk (idle c)]

/-- `XFER m` (30_encoding.md R73). -/
def xfer (c : SpiConfig) (m : Byte) : List Instr := (outBits c.bitOrder m).flatMap (cycr c)

/-- `XFERQ m` (30_encoding.md R74). -/
def xferq (c : SpiConfig) (m : Byte) : List Instr := (outBits c.bitOrder m).flatMap (cyc c)

/-! ## Reading text -/

def isBlank (ch : Char) : Bool := ch = ' ' || ch = '\t' || ch = '\r'

/-- The text without blanks at either end. -/
def trim (t : List Char) : List Char := ((t.dropWhile isBlank).reverse.dropWhile isBlank).reverse

/-- The pieces of the text between separators. -/
def pieces (sep : Char) : List Char → List (List Char)
  | [] => [[]]
  | ch :: rest =>
    match pieces sep rest with
    | [] => [[ch]]
    | p :: ps => if ch = sep then [] :: p :: ps else (ch :: p) :: ps

/-- The value of a hex digit. -/
def digitValue (ch : Char) : Option Nat :=
  if '0' ≤ ch ∧ ch ≤ '9' then some (ch.toNat - '0'.toNat)
  else if 'A' ≤ ch ∧ ch ≤ 'F' then some (ch.toNat - 'A'.toNat + 10)
  else if 'a' ≤ ch ∧ ch ≤ 'f' then some (ch.toNat - 'a'.toNat + 10)
  else none

/-- Digits to a number, the most significant first; none on a digit the base does not have. -/
def digitsValue (base acc : Nat) : List Char → Option Nat
  | [] => some acc
  | ch :: rest =>
    match digitValue ch with
    | none => none
    | some d => if d < base then digitsValue base (acc * base + d) rest else none

/-- "Numbers are decimal or `0x`-prefixed hex" (30_encoding.md R69). -/
def numberValue (t : List Char) : Option Nat :=
  match t with
  | [] => none
  | '0' :: 'x' :: ds => if ds.isEmpty then none else digitsValue 16 0 ds
  | ds => digitsValue 10 0 ds

/-- A byte operand, or a level's byte (30_encoding.md R69). -/
def byteArg (t : List Char) : Option Byte :=
  match numberValue t with
  | none => none
  | some n => if n < 256 then some (BitVec.ofNat 8 n) else none

/-- An input index operand (30_encoding.md R69). -/
def indexArg (t : List Char) : Option SrcIdx :=
  match numberValue t with
  | none => none
  | some n => if h : n < 16 then some ⟨n, h⟩ else none

/-- What a mnemonic with one operand expands to (30_encoding.md R69, R71 to R74). -/
def oneOperand (c : SpiConfig) (name : List Char) (b : Byte) : Option (List Instr) :=
  if name = "SEL".toList then some [.sel (levelOperand b)]
  else if name = "CLK".toList then some [.clk (levelOperand b)]
  else if name = "MOSI".toList then some [.mosi (levelOperand b)]
  else if name = "ARM".toList then some [.arm b]
  else if name = "KBD".toList then some [.kbd b]
  else if name = "CYC".toList then some (cyc c (levelOperand b))
  else if name = "CYCR".toList then some (cycr c (levelOperand b))
  else if name = "XFER".toList then some (xfer c b)
  else if name = "XFERQ".toList then some (xferq c b)
  else none

/-- A mnemonic with no operand (30_encoding.md R69). -/
def noOperand (name : List Char) : Option (List Instr) :=
  if name = "MISO".toList then some [.miso]
  else if name = "IRQ".toList then some [.irq]
  else if name = "RST".toList then some [.rst]
  else none

/-- A mnemonic and its operands (30_encoding.md R69). -/
def assembleOp (c : SpiConfig) (name : List Char) (args : List (List Char)) : Option (List Instr) :=
  match args with
  | [] => noOperand name
  | [a] =>
    match byteArg a with
    | none => none
    | some b => oneOperand c name b
  | [a, b] =>
    match indexArg a, byteArg b with
    | some i, some v => if name = "SRC".toList then some [.src i (levelOperand v)] else none
    | _, _ => none
  | _ => none

/-- One line: a mnemonic, then its operands separated by commas; a comment starts with `;` (30_encoding.md R69). -/
def assembleLine (c : SpiConfig) (line : List Char) : Option (List Instr) :=
  let body := trim (line.takeWhile fun ch => ch ≠ ';')
  let name := body.takeWhile fun ch => !isBlank ch
  let rest := trim (body.dropWhile fun ch => !isBlank ch)
  if body.isEmpty then some []
  else assembleOp c name (if rest.isEmpty then [] else (pieces ',' rest).map trim)

/-- All lines, in order; none if some line is no operation. -/
def assembleLines (c : SpiConfig) : List (List Char) → Option (List Instr)
  | [] => some []
  | l :: ls =>
    match assembleLine c l, assembleLines c ls with
    | some is, some js => some (is ++ js)
    | _, _ => none

/-- A text as operation words (30_encoding.md R68, R69). -/
def assemble (c : SpiConfig) (text : List Char) : Option (List Word) :=
  (assembleLines c (pieces '\n' text)).map (List.map encode)

/-! ## Printing -/

/-- The hex digit of a number below 16. -/
def hexDigit (n : Nat) : Char := "0123456789ABCDEF".toList.getD n '0'

/-- A byte as `0xNN`. -/
def hexByte (b : Byte) : List Char := ['0', 'x', hexDigit (b.toNat / 16), hexDigit (b.toNat % 16)]

/-- A word as `0xNNNN`. -/
def hexWord (w : Word) : List Char :=
  ['0', 'x', hexDigit (w.toNat / 4096), hexDigit (w.toNat / 256 % 16), hexDigit (w.toNat / 16 % 16),
    hexDigit (w.toNat % 16)]

/-- An input index in decimal. -/
def decimalIndex (i : SrcIdx) : List Char :=
  if i.val < 10 then [hexDigit i.val] else ['1', hexDigit (i.val - 10)]

/-- A level as 0 or 1. -/
def levelChar (v : Level) : Char := if v then '1' else '0'

/-- An operation's text (30_encoding.md R70). -/
def instrText : Instr → List Char
  | .sel v => "SEL ".toList ++ [levelChar v]
  | .clk v => "CLK ".toList ++ [levelChar v]
  | .mosi v => "MOSI ".toList ++ [levelChar v]
  | .miso => "MISO".toList
  | .arm b => "ARM ".toList ++ hexByte b
  | .src i v => "SRC ".toList ++ decimalIndex i ++ ", ".toList ++ [levelChar v]
  | .irq => "IRQ".toList
  | .kbd b => "KBD ".toList ++ hexByte b
  | .rst => "RST".toList

/-- The reason's name (30_encoding.md R66). -/
def reasonText : Reject → List Char
  | .reservedOpcode => "reserved-opcode".toList
  | .reservedField => "reserved-field".toList
  | .noSuchSource => "no-such-source".toList
  | .noKeyboardClient => "no-keyboard-client".toList

/-- The disassembler (30_encoding.md R70). -/
def disassemble (c : Config) (w : Word) : List Char :=
  match decode c w with
  | .ok i => instrText i
  | .error r => ".word ".toList ++ hexWord w ++ " ; refused: ".toList ++ reasonText r

end Sys2Proof.Machine
end

