-- ==== Sys2Proof/Machine/Board.lean ====
section
/-! DEFINITION. A board: several transceivers, each with its own configuration, lines, exchange and client, and one
aggregator they share (60_exceptions.md R242, 43_interrupt_aggregator.md R200, R211; log 11). -/
namespace Sys2Proof.Machine

/-- What one transceiver owns (10_state.md R39). -/
structure Transceiver where
  spi : SpiConfig
  line : LineState
  xchg : ExchangeState
  kbd : KeyboardState
  clientState : Nat
deriving DecidableEq, Repr

/-- A board of n transceivers. Its trace says at which transceiver each event arose. -/
structure Board (n : Nat) where
  agg : AggConfig
  aggr : AggregatorState
  units : Vector Transceiver n
  trace : List (Fin n × Event)
  draws : Nat
  pending : List (Fin n × Word)
deriving DecidableEq, Repr

variable {n : Nat}

/-- A new transceiver: the state its own reset leaves (60_exceptions.md R242, 70_reset_and_hazards.md R260, R262). -/
def Transceiver.ofConfig (c : SpiConfig) : Transceiver where
  spi := c
  line := { sel := false, clk := cpol c, mosi := false, miso := false }
  xchg := { recvShift := 0x00, sendShift := 0x00, recvCount := 0, sendCount := 0 }
  kbd := KeyboardState.reset
  clientState := clientStart c.client

/-- A new board: transceivers "start only through reset" (60_exceptions.md R242), and so does the aggregator
(70_reset_and_hazards.md R262). -/
def Board.ofConfig (agg : AggConfig) (units : Vector SpiConfig n) : Board n where
  agg := agg
  aggr := { flag := Vector.replicate 16 false, agg := false }
  units := units.map Transceiver.ofConfig
  trace := []
  draws := 0
  pending := []

/-- The block that transceiver k and the board's aggregator make. -/
def Board.block (b : Board n) (k : Fin n) : State where
  cfg := { spi := b.units[k].spi, agg := b.agg }
  line := b.units[k].line
  xchg := b.units[k].xchg
  aggr := b.aggr
  kbd := b.units[k].kbd
  trace := []
  clientState := b.units[k].clientState
  draws := b.draws
  pending := []

/-- The board after an operation at transceiver k left its block in state t. -/
def Board.withBlock (b : Board n) (k : Fin n) (t : State) : Board n :=
  { b with
    aggr := t.aggr
    units := b.units.set k
      { spi := t.cfg.spi, line := t.line, xchg := t.xchg, kbd := t.kbd, clientState := t.clientState }
    trace := b.trace ++ t.trace.map fun e => (k, e)
    draws := t.draws }

/-- One operation at transceiver k: exactly the block's operation (43_interrupt_aggregator.md R211). SRC and IRQ belong to
no transceiver: that the host applies them at some transceiver, which tags their events, is the model's choice (log 15:
DESIGN CHOICE). -/
def boardExec (k : Fin n) (i : Instr) (b : Board n) : Host.Outcome (Board n) Fault Refusal :=
  andThen (exec i (b.block k)) fun t => .next (b.withBlock k t)

/-- RST at the transceivers of a list, in order (60_exceptions.md R242). -/
def boardResetAt : List (Fin n) → Board n → Host.Outcome (Board n) Fault Refusal
  | [], b => .next b
  | k :: ks, b => andThen (boardExec k .rst b) (boardResetAt ks)

/-- RST at every transceiver: how a board starts (60_exceptions.md R242). -/
def boardReset (b : Board n) : Host.Outcome (Board n) Fault Refusal := boardResetAt (List.finRange n) b

/-- One step of a board: everything runs on one thread, one operation at a time (60_exceptions.md R242). -/
def boardStep (b : Board n) : Host.Outcome (Board n) Fault Refusal :=
  match b.pending with
  | [] => .next b
  | (k, w) :: rest =>
    let b' := { b with pending := rest }
    match decode (b'.block k).cfg w with
    | .ok i => boardExec k i b'
    | .error r => .refused (refusalOf r)

end Sys2Proof.Machine
end

