-- ==== Sys2Proof/Machine/Program.lean ====
section
/-! DEFINITION. Sequences of operations (30_encoding.md R68): applied in order, each seeing every effect of the
earlier ones (20_memory.md R56). -/
namespace Sys2Proof.Machine

/-- Apply operations one at a time, in list order, stopping at the first fault or refusal (20_memory.md R56). -/
def runOps : List Instr → State → Host.Outcome State Fault Refusal
  | [], s => .next s
  | i :: is, s => andThen (exec i s) (runOps is)

/-- Hand the block a program after what is already pending (30_encoding.md R68). -/
def loadProgram (ws : List Word) (s : State) : State := setPending (s.pending ++ ws) s

/-- Hand the block a program written as a big-endian byte stream (30_encoding.md R68). -/
def loadBytes (bs : List Byte) (s : State) : State := loadProgram (wordsOfBytes bs) s

/-- n steps, stopping at the first fault or refusal. -/
def stepN : Nat → State → Host.Outcome State Fault Refusal
  | 0, s => .next s
  | n + 1, s => andThen (step s) (stepN n)

/-- The levels the master read, in order (10_state.md R36). -/
def misoReads : List Event → List Level
  | [] => []
  | .misoRead v :: es => v :: misoReads es
  | _ :: es => misoReads es

/-- The byte a master builds from eight reads: the first goes into bit 7 for `MSB_FIRST`, into bit 0 for `LSB_FIRST`
(30_encoding.md R73). -/
def masterByte (o : BitOrder) (reads : List Level) : Byte := shinAll o 0 reads

end Sys2Proof.Machine
end

