-- ==== Sys2Proof/Safety.lean ====
section
/-! DEFINITION. The terms the statements use: which client calls are allowed, the invariant of the block between
operations, a safe step, and what the trace says of the interrupt line. -/
namespace Sys2Proof.Machine

/-- What a handler may do to the block: `AGG.set_source` on an input the instance has (41_bit_engine.md R143,
30_encoding.md R64). -/
def ClientAction.allowed (c : AggConfig) : ClientAction → Bool
  | .setSource i _ => hasSource c i
  | .reenter _ => false

/-! ## Edges, as the rules classify them -/

/-- A CLK to `level` is a qualifying edge: selected, and a level different from `clk` (41_bit_engine.md R131). -/
def qualifies (level : Level) (s : State) : Bool := s.line.sel && (level != s.line.clk)

/-- The rule's closed form of the role: a sample edge exactly when `level ^ CPOL ^ CPHA = 1` (41_bit_engine.md R133). -/
def sampleRole (c : SpiConfig) (level : Level) : Bool := (level ^^ c.mode.getLsbD 1) ^^ c.mode.getLsbD 0

/-- The CLK to `level` is the edge on which both counts reach 8 (41_bit_engine.md R141). -/
def endsByte (level : Level) (s : State) : Bool :=
  qualifies level s &&
    if sampleRole s.cfg.spi level then decide (s.xchg.recvCount = 7 ∧ s.xchg.sendCount = 8)
    else decide (s.xchg.recvCount = 8 ∧ s.xchg.sendCount = 7)

/-- The byte that edge reports: `recv_shift` after the edge's own SAMPLE, if it is a sample edge (41_bit_engine.md R138,
R142). -/
def receivedByte (level : Level) (s : State) : Byte :=
  if sampleRole s.cfg.spi level then shin s.cfg.spi.bitOrder s.xchg.recvShift s.line.mosi else s.xchg.recvShift

/-! ## Handler calls -/

/-- The handler an operation calls (40_line_ops.md R100, 41_bit_engine.md R142, R143). -/
def handlerCalled : Instr → State → Option HandlerCall
  | .sel level, s => if level = s.line.sel then none else some (if level then .onSelect else .onDeselect)
  | .clk level, s => if endsByte level s then some (.onByteExchanged (receivedByte level s)) else none
  | .mosi _, _ => none
  | .miso, _ => none
  | .arm _, _ => none
  | .src _ _, _ => none
  | .irq, _ => none
  | .kbd _, _ => none
  | .rst, _ => none

/-- The handler stays within 41_bit_engine.md R143: the null client's always, the keyboard client's when its input exists
(00_scope.md R8), another client's when it does only what a handler may do. -/
def handlerReady (call : HandlerCall) (s : State) : Bool :=
  match s.cfg.spi.client with
  | .null => true
  | .keyboard => hasSource s.cfg.agg s.cfg.spi.kbdSrc
  | .scripted p => (scriptAnswer p s.clientState call).1.actions.all (ClientAction.allowed s.cfg.agg)

/-- What the operation asks of the client stays within 41_bit_engine.md R143 and 00_scope.md R8: the handler it calls, if
it calls one, and the keyboard client's input. -/
def clientReady (i : Instr) (s : State) : Bool :=
  (decide (s.cfg.spi.client ≠ .keyboard) || hasSource s.cfg.agg s.cfg.spi.kbdSrc) &&
    match handlerCalled i s with
    | none => true
    | some call => handlerReady call s

/-- The raw level of the last `set_source` on input j. -/
def lastRaw (j : SrcIdx) : List ClientAction → Option Level
  | [] => none
  | .setSource i raw :: as => (lastRaw j as).or (if i = j then some raw else none)
  | .reenter _ :: as => lastRaw j as

/-! ## Invariants -/

/-- The joint invariant of the two counts (41_bit_engine.md R147), with what makes it inductive: the count that is ahead
is the one the edge to the stored clock level counts. -/
def CountsInv (s : State) : Prop :=
  (s.xchg.recvCount = s.xchg.sendCount ∧ s.xchg.recvCount < 8) ∨
  (s.xchg.recvCount = s.xchg.sendCount + 1 ∧ s.xchg.recvCount ≤ 8 ∧ isSampleEdge s.cfg.spi s.line.clk = true) ∨
  (s.xchg.sendCount = s.xchg.recvCount + 1 ∧ s.xchg.sendCount ≤ 8 ∧ isSampleEdge s.cfg.spi s.line.clk = false)

/-- The aggregate is the OR of the flags (43_interrupt_aggregator.md R209), and a place that is no input stays 0. -/
def AggregatorInv (s : State) : Prop :=
  s.aggr.agg = wiredOr s.cfg.agg s.aggr.flag ∧
  ∀ i : SrcIdx, hasSource s.cfg.agg i = false → s.aggr.flag[i] = false

/-- The keyboard client: `kirq = buffer_full` and an empty buffer is 0x00 (42_keyboard_client.md R171, R175); its
protocol state is `NotSelected` exactly while deselected (R172 to R174); it is at rest where it is not attached. -/
def KeyboardInv (s : State) : Prop :=
  s.kbd.kirq = s.kbd.bufferFull ∧
  (s.kbd.bufferFull = false → s.kbd.scancodeBuffer = 0x00) ∧
  (s.cfg.spi.client = .keyboard → (s.kbd.kstate = .notSelected ↔ s.line.sel = false)) ∧
  (s.cfg.spi.client ≠ .keyboard → s.kbd = KeyboardState.reset)

/-- With `CPHA = 0`, `miso` always shows the head of `send_shift` (41_bit_engine.md R139, R142; 40_line_ops.md R104). -/
def MisoInv (s : State) : Prop :=
  cpha s.cfg.spi = false → s.line.miso = head s.cfg.spi.bitOrder s.xchg.sendShift

/-- What holds between operations. -/
structure Inv (s : State) : Prop where
  counts : CountsInv s
  aggregator : AggregatorInv s
  keyboard : KeyboardInv s
  miso : MisoInv s

/-! ## Steps and traces -/

/-- A safe step: it ends in no fault (60_exceptions.md R231). -/
def SafeStep (s : State) : Prop := ∀ r, step s ≠ .fault r

/-- The aggregate level a consumer of `IrqChange` knows after some events, if it knew v before them
(43_interrupt_aggregator.md R204). -/
def levelAfter : Level → List Event → Level
  | v, [] => v
  | _, .irqChange w :: es => levelAfter w es
  | v, _ :: es => levelAfter v es

/-- Each `IrqChange` of the events says a level different from the one before it (43_interrupt_aggregator.md R204). -/
def changesOnly : Level → List Event → Bool
  | _, [] => true
  | v, .irqChange w :: es => (w != v) && changesOnly w es
  | v, _ :: es => changesOnly v es

/-- The events of a handler's `set_source` calls, from the flags and the `agg` they start at: each call recomputes the OR
of the flags and says so exactly if it differs from `agg` (43_interrupt_aggregator.md R203, R204; 60_exceptions.md R235). -/
def sourceEvents (c : AggConfig) : Vector Level 16 → Level → List ClientAction → List Event
  | _, _, [] => []
  | flag, agg, .setSource i raw :: as =>
    let flag' := flag.set i (raw ^^ c.inv[i])
    let new := wiredOr c flag'
    (if new = agg then [] else [.irqChange new]) ++ sourceEvents c flag' new as
  | flag, agg, .reenter _ :: as => sourceEvents c flag agg as

/-- The `IrqChange` events of a list, in order. -/
def irqChanges : List Event → List Event
  | [] => []
  | .irqChange v :: es => .irqChange v :: irqChanges es
  | .selected :: es | .deselected :: es | .byteExchanged _ :: es | .misoRead _ :: es | .irqRead _ :: es => irqChanges es

/-- From s to t the `set_source` calls of a handler reached the aggregator: each flag is the last level presented to it,
through its polarity (43_interrupt_aggregator.md R201, R211), `agg` is the OR of the flags once there was a call, and the
events are those of the calls, one by one (R203, R204). -/
structure SourcesApplied (s t : State) (as : List ClientAction) (es : List Event) : Prop where
  flags : ∀ j : SrcIdx, t.aggr.flag[j] = match lastRaw j as with
    | some raw => raw ^^ s.cfg.agg.inv[j]
    | none => s.aggr.flag[j]
  level : t.aggr.agg = if as = [] then s.aggr.agg else wiredOr s.cfg.agg t.aggr.flag
  exact : es = sourceEvents s.cfg.agg s.aggr.flag s.aggr.agg as
  events : ∀ e ∈ es, ∃ v, e = .irqChange v
  changes : changesOnly s.aggr.agg es = true
  last : levelAfter s.aggr.agg es = t.aggr.agg

end Sys2Proof.Machine
end

