-- ==== Sys2Proof/Certificates/Slice0/Obligations.lean ====
section
/-! DEFINITION. The statements for the provers. Each is about every configuration (the configuration stands in the
state, log 1) unless it says otherwise. -/
open Sys2Proof Sys2Proof.Machine

/-! ## Encoding (30_encoding.md) -/

/-- Decoding the word of an operation the instance has gives it back, from the word and from its two bytes in a stream
(30_encoding.md §1 to §6). -/
def Obligations.DecodeEncodeRoundTrip : Prop :=
  ∀ (c : Config) (i : Instr), i.wf c = true →
    decode c (encode i) = .ok i ∧
    ∀ rest : List Byte, decodeBytes c (bytesOfWord (encode i) ++ rest) = .ok (i, rest)

/-- Re-encoding a decoded word gives the same word, but for a level `DATA`, which becomes 0x00 or 0x01; and what is
decoded is an operation the instance has (30_encoding.md §6). -/
def Obligations.DecodedWordReencodes : Prop :=
  ∀ (c : Config) (w : Word) (i : Instr), decode c w = .ok i → encode i = canonicalLevel w ∧ i.wf c = true

/-- "No two rows match the same word" (30_encoding.md §3). -/
def Obligations.OpcodeRowsNeverOverlap : Prop :=
  ∀ (w : Word) (r q : OpcodeRow), r ∈ opcodeTable → q ∈ opcodeTable → r.covers w = true → q.covers w = true → r = q

/-- A word decodes to an operation exactly when a row of the opcode map covers it, SRC's input exists and KBD's client is
attached; and then the operation is that row's (30_encoding.md §3, §4). -/
def Obligations.CoveredWordDecodesToItsRow : Prop :=
  ∀ (c : Config) (w : Word) (m : Mnemonic),
    (∃ i, decode c w = .ok i ∧ i.mnemonic = m) ↔
    (∃ r ∈ opcodeTable, r.mnemonic = m ∧ r.covers w = true) ∧
    (m = .SRC → (indexOperand (idxField w)).val < c.agg.nSrc) ∧
    (m = .KBD → c.spi.client = .keyboard)

/-- Exactly which words are refused, and under which reason (30_encoding.md §4; the order of the reasons is the model's
choice, log 4). -/
def Obligations.RefusedWordReasons : Prop :=
  ∀ (c : Config) (w : Word),
    (decode c w = .error .reservedOpcode ↔
      (opField w).toNat = 0x0 ∨ (0x9 ≤ (opField w).toNat ∧ (opField w).toNat ≤ 0xE)) ∧
    (decode c w = .error .reservedField ↔
      ((opField w).toNat ∈ [0x1, 0x2, 0x3, 0x5, 0x8, 0x4, 0x7, 0xF] ∧ idxField w ≠ 0) ∨
      ((opField w).toNat ∈ [0x4, 0x7, 0xF] ∧ dataField w ≠ 0)) ∧
    (decode c w = .error .noSuchSource ↔ (opField w).toNat = 0x6 ∧ c.agg.nSrc ≤ (idxField w).toNat) ∧
    (decode c w = .error .noKeyboardClient ↔
      (opField w).toNat = 0x8 ∧ idxField w = 0 ∧ c.spi.client ≠ .keyboard)

/-- A level operand is `bool(DATA)`, in SEL, CLK, MOSI and SRC (30_encoding.md R62). -/
def Obligations.LevelOperandsAreCoerced : Prop :=
  ∀ (c : Config) (data : Byte) (i : SrcIdx), i.val < c.agg.nSrc →
    ∃ level : Level, (level = true ↔ data ≠ 0) ∧
      decode c (wordOf 0x1 0 data) = .ok (.sel level) ∧
      decode c (wordOf 0x2 0 data) = .ok (.clk level) ∧
      decode c (wordOf 0x3 0 data) = .ok (.mosi level) ∧
      decode c (wordOf 0x6 (BitVec.ofFin i) data) = .ok (.src i level)

/-- The example words of 30_encoding.md §6, for the instance of `State.reset` (log 1). -/
def Obligations.WrittenOutWordsDecode : Prop :=
  decode Config.atReset 0b0001000000000001 = .ok (.sel true) ∧
  decode Config.atReset 0b0010000000000000 = .ok (.clk false) ∧
  decode Config.atReset 0b0011000000000001 = .ok (.mosi true) ∧
  decode Config.atReset 0b0100000000000000 = .ok .miso ∧
  decode Config.atReset 0b0101000000111100 = .ok (.arm 0x3C) ∧
  decode Config.atReset 0b0110001000000001 = .ok (.src 2 true) ∧
  decode Config.atReset 0b0111000000000000 = .ok .irq ∧
  decode Config.atReset 0b1000000000011100 = .ok (.kbd 0x1C) ∧
  decode Config.atReset 0b1111000000000000 = .ok .rst

/-- The view `CFG`: its bits, that building from it gives the settings back, and that a nonzero reserved bit is refused
(10_state.md §1). -/
def Obligations.CfgWordLayout : Prop :=
  ∀ (c : SpiConfig),
    (c.cfgWord.getLsbD 0 = cpha c ∧ c.cfgWord.getLsbD 1 = cpol c ∧
      c.cfgWord.getLsbD 2 = decide (c.bitOrder = .lsbFirst) ∧ c.cfgWord.toNat < 8) ∧
    c.withCfgWord c.cfgWord = some c ∧
    ∀ w : Byte, (c.withCfgWord w = none ↔ 8 ≤ w.toNat) ∧ ∀ d, c.withCfgWord w = some d → d.cfgWord = w

/-! ## Steps -/

/-- A step runs the operation its word decodes to, with that word taken from the host's list (log 2). -/
def Obligations.StepRunsDecodedWord : Prop :=
  ∀ (s : State) (w : Word) (ws : List Word) (i : Instr), s.pending = w :: ws → decode s.cfg w = .ok i →
    step s = exec i { s with pending := ws }

/-- A refused word stops the run under its reason; with no word pending the state is held unchanged (logs 2, 3). -/
def Obligations.StepRefusesOrIdles : Prop :=
  (∀ (s : State) (w : Word) (ws : List Word) (r : Reject), s.pending = w :: ws → decode s.cfg w = .error r →
    step s = .refused (refusalOf r)) ∧
  ∀ s : State, s.pending = [] → step s = .next s

/-- No operation changes the configuration (10_state.md §1; log 1). -/
def Obligations.ConfigurationNeverChanges : Prop :=
  ∀ (i : Instr) (s t : State), exec i s = .next t → t.cfg = s.cfg

/-- Every operation the instance has gives a next state, where its client stays within what a handler may do; and with
the null or the keyboard client no operation faults (60_exceptions.md §1; log 7). -/
def Obligations.EveryOperationCompletes : Prop :=
  ∀ (i : Instr) (s : State), i.wf s.cfg = true →
    (clientReady i s = true → ∃ t, exec i s = .next t) ∧
    ((∀ p, s.cfg.spi.client ≠ .scripted p) → ∀ r, exec i s ≠ .fault r)

/-- The operations an instance does not have are refused by name (30_encoding.md §4). -/
def Obligations.AbsentOperationsAreRefused : Prop :=
  ∀ s : State,
    (∀ (i : SrcIdx) (raw : Level), s.cfg.agg.nSrc ≤ i.val → exec (.src i raw) s = .refused .noSuchSource) ∧
    ∀ b : Byte, s.cfg.spi.client ≠ .keyboard → exec (.kbd b) s = .refused .noKeyboardClient

/-! ## Line operations (40_line_ops.md) -/

/-- SEL: nothing at the same level; on the rising edge `sel`, both counts, `Selected`, then `on_select`; on the falling
edge `sel`, `Deselected`, then `on_deselect`; spelt out for the null and the keyboard client (40_line_ops.md, SEL; the spec's
decisions D8, D9, D15). -/
def Obligations.SelWritesSelectLine : Prop :=
  ∀ (s : State) (level : Level),
    (level = s.line.sel → exec (.sel level) s = .next s) ∧
    (level ≠ s.line.sel →
      let after : State := if level then
          { s with line := { s.line with sel := true }, xchg := { s.xchg with recvCount := 0, sendCount := 0 },
                   trace := s.trace ++ [.selected] }
        else { s with line := { s.line with sel := false }, trace := s.trace ++ [.deselected] }
      exec (.sel level) s = (if level then onSelect after else onDeselect after) ∧
      (s.cfg.spi.client = .null → exec (.sel level) s = .next after) ∧
      (s.cfg.spi.client = .keyboard → exec (.sel level) s =
        .next { after with kbd := { s.kbd with kstate := if level then .newlySelected else .notSelected } }))

/-- A client given by its transition table: its handler runs at a select edge, on its own state, leaves its next own
state, and its `set_source` calls reach the aggregator, each with its own event if it changes `agg`; nothing else changes
but what SEL writes (41_bit_engine.md §4;
the spec's decisions D8, D9, D13, D15, D17; log 7). -/
def Obligations.ScriptedHandlerRunsAtSelect : Prop :=
  ∀ (s : State) (level : Level) (p : ClientScript) (run : HandlerRun) (next : Nat),
    s.cfg.spi.client = .scripted p → level ≠ s.line.sel →
    scriptAnswer p s.clientState (if level then .onSelect else .onDeselect) = (run, next) →
    run.actions.all (ClientAction.allowed s.cfg.agg) = true →
    ∃ (t : State) (es : List Event), exec (.sel level) s = .next t ∧
      SourcesApplied s t run.actions es ∧
      t.line = { s.line with sel := level } ∧
      t.xchg = (if level then { s.xchg with recvCount := 0, sendCount := 0 } else s.xchg) ∧
      t.kbd = s.kbd ∧ t.clientState = next ∧ t.draws = s.draws ∧ t.cfg = s.cfg ∧ t.pending = s.pending ∧
      t.trace = s.trace ++ (if level then .selected else .deselected) :: es

/-- A forbidden call in a handler, first or after allowed ones, is the model's fault; a `set_source` on an input that does
not exist is refused as SRC is (41_bit_engine.md §4; logs 7, 8). -/
def Obligations.ReentrantHandlerFaults : Prop :=
  ∀ (i : Instr) (s : State) (p : ClientScript) (call : HandlerCall) (before after : List ClientAction) (a : ClientAction),
    s.cfg.spi.client = .scripted p → handlerCalled i s = some call →
    (scriptAnswer p s.clientState call).1.actions = before ++ a :: after →
    before.all (ClientAction.allowed s.cfg.agg) = true →
    (∀ what, a = .reenter what → exec i s = .fault .reentrantLineOperation) ∧
    (∀ j raw, a = .setSource j raw → s.cfg.agg.nSrc ≤ j.val → exec i s = .refused .noSuchSource)

/-- No operation faults in any other way (60_exceptions.md §1). -/
def Obligations.FaultsOnlyByReentry : Prop :=
  ∀ (i : Instr) (s : State) (r : Fault), exec i s = .fault r →
    ∃ p call what, s.cfg.spi.client = .scripted p ∧ handlerCalled i s = some call ∧
      .reenter what ∈ (scriptAnswer p s.clientState call).1.actions

/-- MOSI stores `bool(DATA)` while selected and is discarded otherwise; its word is 0x30 and `DATA` (40_line_ops.md
R102). -/
def Obligations.MosiStoresWhileSelected : Prop :=
  ∀ (s : State) (data : Byte),
    let level : Level := decide (data ≠ 0)
    decode s.cfg (wordOf 0x3 0 data) = .ok (.mosi level) ∧
    exec (.mosi level) s = .next (if s.line.sel then { s with line := { s.line with mosi := level } } else s)

/-- MISO emits the driven level and changes nothing else, selected or not (40_line_ops.md, MISO; decision D10). -/
def Obligations.MisoIsPureRead : Prop :=
  ∀ s : State, exec .miso s = .next { s with trace := s.trace ++ [.misoRead s.line.miso] }

/-- ARM loads `send_shift` and drives its first bit, at any time, and leaves the counts (40_line_ops.md, ARM;
decision D12). -/
def Obligations.ArmLoadsAndDrives : Prop :=
  ∀ (s : State) (b : Byte), exec (.arm b) s =
    .next { s with
      line := { s.line with
        miso := match s.cfg.spi.bitOrder with
          | .msbFirst => b.getLsbD 7
          | .lsbFirst => b.getLsbD 0 }
      xchg := { s.xchg with sendShift := b } }

/-! ## The bit engine (41_bit_engine.md) -/

/-- The mode/phase selector, in closed form and mode by mode (41_bit_engine.md R133). -/
def Obligations.EdgeRoleByModeAndLevel : Prop :=
  ∀ c : SpiConfig,
    (∀ level, isSampleEdge c level = sampleRole c level) ∧
    (c.mode = 0 → isLeading c true = true ∧ isSampleEdge c true = true ∧ isSampleEdge c false = false) ∧
    (c.mode = 1 → isLeading c true = true ∧ isSampleEdge c true = false ∧ isSampleEdge c false = true) ∧
    (c.mode = 2 → isLeading c true = false ∧ isSampleEdge c true = false ∧ isSampleEdge c false = true) ∧
    (c.mode = 3 → isLeading c true = false ∧ isSampleEdge c true = true ∧ isSampleEdge c false = false) ∧
    isLeading c false = !isLeading c true

/-- A CLK that is no qualifying edge changes nothing: repeated, or while deselected (40_line_ops.md CLK;
41_bit_engine.md §5). -/
def Obligations.ClkWithoutEdgeChangesNothing : Prop :=
  ∀ (s : State) (level : Level), qualifies level s = false → exec (.clk level) s = .next s

/-- A sample edge shifts `mosi` into `recv_shift` and counts it; then the byte ends (`ClkEndsByte`) or the operation is
over (41_bit_engine.md R138). -/
def Obligations.ClkSampleEdge : Prop :=
  ∀ (s : State) (level : Level), qualifies level s = true → sampleRole s.cfg.spi level = true →
    let after : State := { s with
      line := { s.line with clk := level }
      xchg := { s.xchg with
        recvShift := shin s.cfg.spi.bitOrder s.xchg.recvShift s.line.mosi
        recvCount := s.xchg.recvCount + 1 } }
    (endsByte level s = false → exec (.clk level) s = .next after) ∧
    (endsByte level s = true → exec (.clk level) s = complete after)

/-- With `CPHA = 0`, a shift edge advances `send_shift`, drives the new head and counts it; then the byte ends or the
operation is over (41_bit_engine.md R139). -/
def Obligations.ClkShiftEdgePhaseZero : Prop :=
  ∀ (s : State) (level : Level), qualifies level s = true → sampleRole s.cfg.spi level = false →
    s.cfg.spi.mode.getLsbD 0 = false →
    let after : State := { s with
      line := { s.line with
        clk := level, miso := head s.cfg.spi.bitOrder (adv s.cfg.spi.bitOrder s.xchg.sendShift) }
      xchg := { s.xchg with
        sendShift := adv s.cfg.spi.bitOrder s.xchg.sendShift
        sendCount := s.xchg.sendCount + 1 } }
    (endsByte level s = false → exec (.clk level) s = .next after) ∧
    (endsByte level s = true → exec (.clk level) s = complete after)

/-- With `CPHA = 1`, a shift edge drives the current head, advances `send_shift` and counts it; then the byte ends or the
operation is over (41_bit_engine.md §3; the spec's decision D7). -/
def Obligations.ClkShiftEdgePhaseOne : Prop :=
  ∀ (s : State) (level : Level), qualifies level s = true → sampleRole s.cfg.spi level = false →
    s.cfg.spi.mode.getLsbD 0 = true →
    let after : State := { s with
      line := { s.line with clk := level, miso := head s.cfg.spi.bitOrder s.xchg.sendShift }
      xchg := { s.xchg with
        sendShift := adv s.cfg.spi.bitOrder s.xchg.sendShift
        sendCount := s.xchg.sendCount + 1 } }
    (endsByte level s = false → exec (.clk level) s = .next after) ∧
    (endsByte level s = true → exec (.clk level) s = complete after)

/-- The edge that ends a byte: counts, `send_shift` and `miso` reset, `ByteExchanged`, then the client, whose reply, if
any, is armed over that reset; the null client arms nothing (41_bit_engine.md §3, §4; the spec's decisions D8, D13, D14). -/
def Obligations.ClkEndsByte : Prop :=
  ∀ (s : State) (level : Level), endsByte level s = true →
    let rx := receivedByte level s
    let after : State := { s with
      line := { s.line with clk := level, miso := false }
      xchg := { recvShift := rx, sendShift := 0x00, recvCount := 0, sendCount := 0 }
      trace := s.trace ++ [.byteExchanged rx] }
    (s.cfg.spi.client = .null → exec (.clk level) s = .next after) ∧
    (∀ u, onByteExchanged rx after = .next (u, none) → exec (.clk level) s = .next u) ∧
    ∀ u b, onByteExchanged rx after = .next (u, some b) →
      exec (.clk level) s = .next { u with
        line := { u.line with miso := head u.cfg.spi.bitOrder b }
        xchg := { u.xchg with sendShift := b } }

/-- Every bit of a byte is sent and received once: `out(s, k)` is `head(adv^k(s))`, `adv^8(s)` is 0x00, and eight `shin`
steps leave exactly the eight bits (41_bit_engine.md §2). -/
def Obligations.BitHelpersCarryEveryBit : Prop :=
  (∀ (o : BitOrder) (s : Byte) (k : Fin 8), out o s k = head o (advN o k.val s)) ∧
  (∀ (o : BitOrder) (s : Byte), advN o 8 s = 0x00) ∧
  ∀ (o : BitOrder) (s : Byte) (vs : List Level), vs.length = 8 → outBits o (shinAll o s vs) = vs

/-- A whole byte: from an aligned start with t armed, XFER m gives the master exactly the bits of t and the block the byte
m, in every mode and both bit orders. Up to the last edge this holds for every client; the last edge ends the byte with
m, and with the null client leaves the state shown (41_bit_engine.md §5; 30_encoding.md §7; where the master reads is the
spec's decision D27, the order of SHIFT and of the byte's end D7, D8, D14). -/
def Obligations.WholeByteExchange : Prop :=
  ∀ (s : State) (t m : Byte),
    s.line.sel = true → s.line.clk = idle s.cfg.spi → s.line.miso = head s.cfg.spi.bitOrder t →
    s.xchg.sendShift = t → s.xchg.recvCount = 0 → s.xchg.sendCount = 0 →
    (∃ u : State, runOps (xfer s.cfg.spi m).dropLast s = .next u ∧
      u.trace = s.trace ++ (outBits s.cfg.spi.bitOrder t).map .misoRead ∧
      endsByte (idle s.cfg.spi) u = true ∧ receivedByte (idle s.cfg.spi) u = m ∧
      u.aggr = s.aggr ∧ u.kbd = s.kbd ∧ u.clientState = s.clientState ∧ u.draws = s.draws) ∧
    (s.cfg.spi.client = .null → runOps (xfer s.cfg.spi m) s = .next { s with
      line := { s.line with mosi := out s.cfg.spi.bitOrder m 7, miso := false }
      xchg := { recvShift := m, sendShift := 0x00, recvCount := 0, sendCount := 0 }
      trace := s.trace ++ (outBits s.cfg.spi.bitOrder t).map .misoRead ++ [.byteExchanged m] })

/-! ## The keyboard reference client (42_keyboard_client.md) -/

/-- The read command (first byte 0x00 to 0x7F): the reply is the scancode, read before the clear and 0x00 when the buffer
is empty; the buffer is emptied, the interrupt deasserted, the protocol state `ReadyToRead`
(42_keyboard_client.md, READ; the interrupt path is the spec's decisions D17, D23, the byte's end D8, D13, D14). -/
def Obligations.KeyboardReadCommand : Prop :=
  ∀ (s : State) (level : Level), s.cfg.spi.client = .keyboard → s.cfg.spi.kbdSrc.val < s.cfg.agg.nSrc →
    endsByte level s = true → s.kbd.kstate = .newlySelected → (receivedByte level s).toNat < 0x80 →
    let flag := s.aggr.flag.set s.cfg.spi.kbdSrc false
    let agg := wiredOr s.cfg.agg flag
    (exec (.clk level) s = .next { s with
      line := { s.line with clk := level, miso := head s.cfg.spi.bitOrder s.kbd.scancodeBuffer }
      xchg := ⟨receivedByte level s, s.kbd.scancodeBuffer, 0, 0⟩
      kbd := ⟨.readyToRead, 0x00, false, false⟩
      aggr := ⟨flag, agg⟩
      trace := s.trace ++ .byteExchanged (receivedByte level s) ::
        (if agg = s.aggr.agg then [] else [.irqChange agg]) }) ∧
    (KeyboardInv s → s.kbd.bufferFull = false →
      ∃ t, exec (.clk level) s = .next t ∧ t.xchg.sendShift = 0x00 ∧ t.line.miso = false)

/-- Control code 0x00: buffer emptied, interrupt deasserted, reply 0x00 (42_keyboard_client.md,
control code 0x00; the interrupt path is the spec's decisions D17, D23, the byte's end D8, D13, D14). -/
def Obligations.KeyboardControlReset : Prop :=
  ∀ (s : State) (level : Level), s.cfg.spi.client = .keyboard → s.cfg.spi.kbdSrc.val < s.cfg.agg.nSrc →
    endsByte level s = true → s.kbd.kstate = .newlySelected → receivedByte level s = 0x80 →
    let flag := s.aggr.flag.set s.cfg.spi.kbdSrc false
    let agg := wiredOr s.cfg.agg flag
    exec (.clk level) s = .next { s with
      line := { s.line with clk := level, miso := false }
      xchg := ⟨0x80, 0x00, 0, 0⟩
      kbd := ⟨.readyToRespond, 0x00, false, false⟩
      aggr := ⟨flag, agg⟩
      trace := s.trace ++ .byteExchanged 0x80 :: (if agg = s.aggr.agg then [] else [.irqChange agg]) }

/-- Control code 0x01: reply 0xFF if the buffer is full, else 0x00, and nothing cleared (42_keyboard_client.md,
control code 0x01; the byte's end is the spec's decisions D8, D13, D14). -/
def Obligations.KeyboardPeek : Prop :=
  ∀ (s : State) (level : Level), s.cfg.spi.client = .keyboard →
    endsByte level s = true → s.kbd.kstate = .newlySelected → receivedByte level s = 0x81 →
    exec (.clk level) s = .next { s with
      line := { s.line with clk := level, miso := s.kbd.bufferFull }
      xchg := ⟨0x81, if s.kbd.bufferFull then 0xFF else 0x00, 0, 0⟩
      kbd := { s.kbd with kstate := .readyToRespond }
      trace := s.trace ++ [.byteExchanged 0x81] }

/-- Any other control code: some reply (the free value of log 5), buffer and interrupt unchanged
(42_keyboard_client.md, the spec's decision D21). -/
def Obligations.KeyboardUnknownControlCode : Prop :=
  ∀ (s : State) (level : Level), s.cfg.spi.client = .keyboard →
    endsByte level s = true → s.kbd.kstate = .newlySelected → 0x82 ≤ (receivedByte level s).toNat →
    ∃ reply : Byte, exec (.clk level) s = .next { s with
      line := { s.line with clk := level, miso := head s.cfg.spi.bitOrder reply }
      xchg := ⟨receivedByte level s, reply, 0, 0⟩
      kbd := { s.kbd with kstate := .readyToRespond }
      draws := s.draws + 1
      trace := s.trace ++ [.byteExchanged (receivedByte level s)] }

/-- After the command byte every byte is answered with 0x00: the second one moves to `Done`, later ones change nothing
(42_keyboard_client.md, the spec's decision D22 and its transaction window). -/
def Obligations.KeyboardAfterCommandByte : Prop :=
  ∀ (s : State) (level : Level), s.cfg.spi.client = .keyboard → endsByte level s = true →
    s.kbd.kstate = .readyToRead ∨ s.kbd.kstate = .readyToRespond ∨ s.kbd.kstate = .done →
    exec (.clk level) s = .next { s with
      line := { s.line with clk := level, miso := false }
      xchg := ⟨receivedByte level s, 0x00, 0, 0⟩
      kbd := { s.kbd with kstate := .done }
      trace := s.trace ++ [.byteExchanged (receivedByte level s)] }

/-- KBD overwrites the buffer, marks it full and asserts the keyboard's input, whatever its polarity, at any time; its word
is 0x80 and `DATA`; it is refused with no keyboard client (42_keyboard_client.md, KBD; the interrupt path is the
spec's decisions D17, D23, the refusal D4). -/
def Obligations.KbdPushesScancode : Prop :=
  ∀ (s : State) (b : Byte),
    (s.cfg.spi.client = .keyboard → s.cfg.spi.kbdSrc.val < s.cfg.agg.nSrc →
      decode s.cfg (wordOf 0x8 0 b) = .ok (.kbd b) ∧
      exec (.kbd b) s = .next { s with
        kbd := { s.kbd with scancodeBuffer := b, bufferFull := true, kirq := true }
        aggr := ⟨s.aggr.flag.set s.cfg.spi.kbdSrc true, true⟩
        trace := if s.aggr.agg then s.trace else s.trace ++ [.irqChange true] }) ∧
    (s.cfg.spi.client ≠ .keyboard →
      decode s.cfg (wordOf 0x8 0 b) = .error .noKeyboardClient ∧ exec (.kbd b) s = .refused .noKeyboardClient)

/-! ## The aggregator (43_interrupt_aggregator.md) -/

/-- SRC sets `flag[i]` to `raw ^ INV[i]` with `raw = bool(DATA)`, `agg` to the OR of the flags, and says so exactly when
`agg` changes; where `agg` is the OR of the flags, a flag set to the value it holds changes and emits nothing; its word is
`0x6`, the input, `DATA`; an input that does not exist is refused (43_interrupt_aggregator.md R202). -/
def Obligations.SrcSetsFlagAndAggregate : Prop :=
  ∀ (s : State) (i : SrcIdx) (data : Byte),
    let raw : Level := decide (data ≠ 0)
    (i.val < s.cfg.agg.nSrc →
      let flag := s.aggr.flag.set i (raw ^^ s.cfg.agg.inv[i])
      let new := decide (∃ j : SrcIdx, j.val < s.cfg.agg.nSrc ∧ flag[j] = true)
      decode s.cfg (wordOf 0x6 (BitVec.ofFin i) data) = .ok (.src i raw) ∧
      exec (.src i raw) s = .next { s with
        aggr := ⟨flag, new⟩
        trace := if new = s.aggr.agg then s.trace else s.trace ++ [.irqChange new] } ∧
      (AggregatorInv s → s.aggr.flag[i] = (raw ^^ s.cfg.agg.inv[i]) → exec (.src i raw) s = .next s)) ∧
    (s.cfg.agg.nSrc ≤ i.val →
      decode s.cfg (wordOf 0x6 (BitVec.ofFin i) data) = .error .noSuchSource ∧
      exec (.src i raw) s = .refused .noSuchSource)

/-- IRQ emits the aggregate, the logical level whatever the pin's polarity, and changes nothing else
(43_interrupt_aggregator.md, IRQ; the spec's decision D30). -/
def Obligations.IrqReadsAggregate : Prop :=
  ∀ s : State, exec .irq s = .next { s with trace := s.trace ++ [.irqRead s.aggr.agg] }

/-- The trace only grows, and an operation's new events say `IrqChange` exactly when `agg` changes, once per change, the
last one with the level it leaves: at most one, and one exactly if `agg` ends otherwise than it began, but where the
operation runs a table client's handler, whose calls each say their own change; RST alone is silent
(43_interrupt_aggregator.md, `IrqChange`; 60_exceptions.md §2; the spec's decision D6; log 7). -/
def Obligations.IrqChangeTracksAggregate : Prop :=
  ∀ (i : Instr) (s t : State), exec i s = .next t →
    (i ≠ .rst → ∃ es, t.trace = s.trace ++ es ∧ changesOnly s.aggr.agg es = true ∧
      levelAfter s.aggr.agg es = t.aggr.agg ∧
      ((∀ p call, s.cfg.spi.client = .scripted p → handlerCalled i s ≠ some call) →
        irqChanges es = if t.aggr.agg = s.aggr.agg then [] else [.irqChange t.aggr.agg]) ∧
      ∀ p call, s.cfg.spi.client = .scripted p → handlerCalled i s = some call →
        irqChanges es = sourceEvents s.cfg.agg s.aggr.flag s.aggr.agg (scriptAnswer p s.clientState call).1.actions) ∧
    (i = .rst → t.trace = s.trace)

/-- `agg` falls only when no input is asserted any more, and an asserted input is deasserted by its own source (SRC on it,
or the client that drives it) or by RST only (43_interrupt_aggregator.md, its level-based behaviour;
70_reset_and_hazards.md §1). -/
def Obligations.AggregateFallsOnlyWhenAllInputsDeassert : Prop :=
  ∀ (i : Instr) (s t : State), AggregatorInv s → exec i s = .next t →
    (s.aggr.agg = true → t.aggr.agg = false → ∀ j : SrcIdx, t.aggr.flag[j] = false) ∧
    ∀ j : SrcIdx, s.aggr.flag[j] = true → t.aggr.flag[j] = false →
      (∃ raw, i = .src j raw) ∨ i = .rst ∨
      (s.cfg.spi.client = .keyboard ∧ s.cfg.spi.kbdSrc = j ∧ ∃ v, i = .clk v) ∨
      ((∃ p, s.cfg.spi.client = .scripted p) ∧ ∃ v, i = .sel v ∨ i = .clk v)

/-- The source's laws: one asserted input asserts the aggregate; none leaves it deasserted; deasserting one of two leaves
it asserted with no event; SRC is idempotent (43_interrupt_aggregator.md, laws (a) to (d)). -/
def Obligations.AggregatorLaws : Prop :=
  ∀ (s t : State) (i : SrcIdx) (raw : Level), exec (.src i raw) s = .next t →
    (t.aggr.flag[i] = true → t.aggr.agg = true) ∧
    ((∀ j : SrcIdx, t.aggr.flag[j] = false) → t.aggr.agg = false) ∧
    (∀ j : SrcIdx, j ≠ i → j.val < s.cfg.agg.nSrc → s.aggr.flag[j] = true → s.aggr.agg = true →
      t.aggr.agg = true ∧ t.trace = s.trace) ∧
    exec (.src i raw) t = .next t

/-- The packed view `IRQ_FLAGS` has input i at bit i, and `agg = bool(IRQ_FLAGS)` (10_state.md §4). -/
def Obligations.IrqFlagsView : Prop :=
  ∀ s : State, AggregatorInv s →
    (∀ i : SrcIdx, (irqFlags s.cfg.agg s.aggr.flag).getLsbD i.val = s.aggr.flag[i]) ∧
    s.aggr.agg = decide (irqFlags s.cfg.agg s.aggr.flag ≠ 0)

/-! ## Reset (70_reset_and_hazards.md) -/

/-- RST puts every element at the spec's reset value, `clk` at `CPOL`, and emits nothing (70_reset_and_hazards.md §1, the
spec's decisions D5 and D6; what stays is log 6's and the model's own fields). -/
def Obligations.RstResetsSilently : Prop :=
  ∀ s : State, exec .rst s = .next { s with
    line := { sel := false, clk := s.cfg.spi.mode.getLsbD 1, mosi := false, miso := false }
    xchg := { recvShift := 0x00, sendShift := 0x00, recvCount := 0, sendCount := 0 }
    aggr := { flag := Vector.replicate 16 false, agg := false }
    kbd := { kstate := .notSelected, scancodeBuffer := 0x00, bufferFull := false, kirq := false }
    clientState := match s.cfg.spi.client with
      | .scripted p => p.start
      | _ => 0 }

/-- The state of a new instance is the state RST leaves (70_reset_and_hazards.md §1), for every configuration. -/
def Obligations.PowerOnEqualsReset : Prop :=
  ∀ s : State, exec .rst s = .next { State.ofConfig s.cfg with
    trace := s.trace, draws := s.draws, pending := s.pending }

/-! ## Whole-machine rules -/

/-- Which operations write which state (10_state.md §5, the table of readers and writers). -/
def Obligations.OnlyTheListedOperationsWrite : Prop :=
  ∀ (i : Instr) (s t : State), exec i s = .next t →
    (t.line.sel ≠ s.line.sel → (∃ v, i = .sel v) ∨ i = .rst) ∧
    (t.line.clk ≠ s.line.clk → (∃ v, i = .clk v ∧ s.line.sel = true) ∨ i = .rst) ∧
    (t.line.mosi ≠ s.line.mosi → (∃ v, i = .mosi v ∧ s.line.sel = true) ∨ i = .rst) ∧
    (t.line.miso ≠ s.line.miso → (∃ b, i = .arm b) ∨ (∃ v, i = .clk v) ∨ i = .rst) ∧
    (t.xchg.recvShift ≠ s.xchg.recvShift → (∃ v, i = .clk v) ∨ i = .rst) ∧
    (t.xchg.sendShift ≠ s.xchg.sendShift → (∃ b, i = .arm b) ∨ (∃ v, i = .clk v) ∨ i = .rst) ∧
    (t.xchg.recvCount ≠ s.xchg.recvCount ∨ t.xchg.sendCount ≠ s.xchg.sendCount →
      (∃ v, i = .clk v) ∨ i = .sel true ∨ i = .rst) ∧
    (t.aggr ≠ s.aggr → (∃ j raw, i = .src j raw) ∨ (∃ b, i = .kbd b) ∨ i = .rst ∨
      (s.cfg.spi.client = .keyboard ∧ ∃ v, i = .clk v) ∨
      ((∃ p, s.cfg.spi.client = .scripted p) ∧ ∃ v, i = .sel v ∨ i = .clk v)) ∧
    (t.kbd ≠ s.kbd → i = .rst ∨
      (s.cfg.spi.client = .keyboard ∧ ((∃ v, i = .sel v ∨ i = .clk v) ∨ ∃ b, i = .kbd b))) ∧
    t.pending = s.pending

/-- ARM, MISO, SRC, IRQ, KBD and RST act the same whether or not the block is selected (40_line_ops.md, its summary of
what is discarded). -/
def Obligations.SelectDoesNotMatterToTheOthers : Prop :=
  ∀ (i : Instr) (s t : State) (v : Level), (∀ w, i ≠ .sel w ∧ i ≠ .clk w ∧ i ≠ .mosi w) → exec i s = .next t →
    exec i { s with line := { s.line with sel := v } } =
      .next { t with line := { t.line with sel := if i = .rst then false else v } }

/-- Neither the names of the inputs nor the polarity of the output pin has an effect on any operation; the polarity shows
on the pin alone (43_interrupt_aggregator.md, `SRC_NAME` and `OUT_ACTIVE_LOW`). -/
def Obligations.NamesAndOutputPolarityHaveNoEffect : Prop :=
  ∀ (names : List String) (low : Level),
    let f : State → State := fun s =>
      { s with cfg := { s.cfg with agg := { s.cfg.agg with srcName := names, outActiveLow := low } } }
    ∀ (i : Instr) (s : State),
      (∀ t, exec i s = .next t → exec i (f s) = .next (f t)) ∧
      irqPin (f s) = (if low then !s.aggr.agg else s.aggr.agg)

/-! ## Invariants -/

/-- The invariant holds in the state of every new instance, `State.reset` among them. -/
def Obligations.InvariantsHoldAtReset : Prop :=
  (∀ c : Config, Inv (State.ofConfig c)) ∧ Inv State.reset

/-- Every step keeps the counter invariant; under it each count is at most 8, they differ by at most 1, they are never
both 8, and no qualifying edge increments a count from 8 (41_bit_engine.md §5). -/
def Obligations.CountersStayInStep : Prop :=
  (∀ s t : State, CountsInv s → step s = .next t → CountsInv t) ∧
  ∀ s : State, CountsInv s →
    s.xchg.recvCount ≤ 8 ∧ s.xchg.sendCount ≤ 8 ∧
    s.xchg.recvCount ≤ s.xchg.sendCount + 1 ∧ s.xchg.sendCount ≤ s.xchg.recvCount + 1 ∧
    ¬(s.xchg.recvCount = 8 ∧ s.xchg.sendCount = 8) ∧
    ∀ level, qualifies level s = true →
      if sampleRole s.cfg.spi level then s.xchg.recvCount < 8 else s.xchg.sendCount < 8

/-- Every step keeps `agg` the OR of the flags, and the places that are no inputs 0 (43_interrupt_aggregator.md,
10_state.md §4; log 9). -/
def Obligations.AggregateStaysTheOrOfTheFlags : Prop :=
  ∀ s t : State, AggregatorInv s → step s = .next t → AggregatorInv t

/-- Every step keeps the keyboard's `kirq = buffer_full`, an empty buffer at 0x00, `NotSelected` exactly while deselected,
and an absent keyboard at rest (42_keyboard_client.md). -/
def Obligations.KeyboardStateStaysCoherent : Prop :=
  ∀ s t : State, KeyboardInv s → step s = .next t → KeyboardInv t

/-- With `CPHA = 0`, every step keeps the head of `send_shift` on `miso` (41_bit_engine.md §3, 40_line_ops.md). -/
def Obligations.MisoShowsTheHeadInPhaseZero : Prop :=
  ∀ s t : State, MisoInv s → step s = .next t → MisoInv t

/-! ## Boards -/

/-- An operation at one transceiver of a board is the block's operation on that transceiver and the shared aggregator, and
leaves every other transceiver as it was (60_exceptions.md §3; log 11). That SRC and IRQ are applied at a transceiver,
which tags their events, is the model's choice (log 15). -/
def Obligations.BoardTransceiversShareOnlyTheAggregator : Prop :=
  ∀ (n : Nat) (b b' : Board n) (k : Fin n) (i : Instr), boardExec k i b = .next b' →
    (∃ t, exec i (b.block k) = .next t ∧ b'.aggr = t.aggr ∧ b'.units[k].line = t.line ∧ b'.units[k].xchg = t.xchg ∧
      b'.units[k].kbd = t.kbd ∧ b'.units[k].clientState = t.clientState ∧ b'.draws = t.draws ∧
      b'.units[k].spi = b.units[k].spi ∧
      b'.trace = b.trace ++ t.trace.map fun e => (k, e)) ∧
    (∀ j : Fin n, j ≠ k → b'.units[j] = b.units[j]) ∧
    b'.agg = b.agg ∧ b'.pending = b.pending

/-- What an operation at transceiver k leaves of it, of the aggregator and of the trace does not depend on the other
transceivers (10_state.md §5, 60_exceptions.md §3; log 11). -/
def Obligations.BoardOtherTransceiversAreInvisible : Prop :=
  ∀ (n : Nat) (b c b' : Board n) (k : Fin n) (i : Instr),
    c.units[k] = b.units[k] → c.agg = b.agg → c.aggr = b.aggr → c.draws = b.draws → c.trace = b.trace →
    boardExec k i b = .next b' →
    ∃ c', boardExec k i c = .next c' ∧ c'.units[k] = b'.units[k] ∧ c'.aggr = b'.aggr ∧ c'.trace = b'.trace ∧
      ∀ j : Fin n, j ≠ k → c'.units[j] = c.units[j]

/-! ## Assembler text (30_encoding.md §6, §7) -/

/-- The printed text of an operation assembles to that operation (30_encoding.md §6; spacing is log 14). -/
def Obligations.PrintedTextAssembles : Prop :=
  ∀ (c : SpiConfig) (i : Instr), assembleLine c (instrText i) = some [i]

/-- The lengths of XFER and XFERQ, and the spec's worked words of `XFER 0xA5` in mode 0 and of its first bit in mode 3
(30_encoding.md §7). -/
def Obligations.XferExpandsAsWorked : Prop :=
  (∀ (c : SpiConfig) (m : Byte), (xfer c m).length = 32 ∧ (xferq c m).length = 24) ∧
  (xfer { mode := 0, bitOrder := .msbFirst, client := .null, kbdSrc := 0 } 0xA5).map encode =
    [0x3001, 0x4000, 0x2001, 0x2000] ++ [0x3000, 0x4000, 0x2001, 0x2000] ++
    [0x3001, 0x4000, 0x2001, 0x2000] ++ [0x3000, 0x4000, 0x2001, 0x2000] ++
    [0x3000, 0x4000, 0x2001, 0x2000] ++ [0x3001, 0x4000, 0x2001, 0x2000] ++
    [0x3000, 0x4000, 0x2001, 0x2000] ++ [0x3001, 0x4000, 0x2001, 0x2000] ∧
  ((xfer { mode := 3, bitOrder := .msbFirst, client := .null, kbdSrc := 0 } 0xA5).take 4).map encode =
    [0x3001, 0x2000, 0x4000, 0x2001]

/-! ## Clients given by their transition tables (41_bit_engine.md §4; log 7) -/

/-- The same at the end of a byte: the handler is given the received byte, its `set_source` calls reach the aggregator, each
with its own event if it changes `agg`, and its result, if any, is loaded over the reset of the byte's end (41_bit_engine.md §3, §4; the spec's decisions D8, D13, D14, D17; log 7). -/
def Obligations.ScriptedHandlerRunsAtByteEnd : Prop :=
  ∀ (s : State) (level : Level) (p : ClientScript) (run : HandlerRun) (next : Nat),
    s.cfg.spi.client = .scripted p → endsByte level s = true →
    scriptAnswer p s.clientState (.onByteExchanged (receivedByte level s)) = (run, next) →
    run.actions.all (ClientAction.allowed s.cfg.agg) = true →
    ∃ (t : State) (es : List Event), exec (.clk level) s = .next t ∧
      SourcesApplied s t run.actions es ∧
      t.line = { s.line with
        clk := level
        miso := match run.reply with
          | none => false
          | some b => head s.cfg.spi.bitOrder b } ∧
      t.xchg = ⟨receivedByte level s, run.reply.getD 0x00, 0, 0⟩ ∧
      t.kbd = s.kbd ∧ t.clientState = next ∧ t.draws = s.draws ∧ t.cfg = s.cfg ∧ t.pending = s.pending ∧
      t.trace = s.trace ++ .byteExchanged (receivedByte level s) :: es

/-- A handler's `set_source` calls have exactly the effect of the same SRC operations in order (43_interrupt_aggregator.md
R211; a handler as a list of actions is log 7). That a call on an input that does not exist is refused as SRC is, is the
model's inference (log 8). -/
def Obligations.SetSourceCallsAreSrcOperations : Prop :=
  ∀ (calls : List (SrcIdx × Level)) (s : State),
    runActions (calls.map fun c => .setSource c.1 c.2) s = runOps (calls.map fun c => .src c.1 c.2) s

/-- Every client with finitely many own states is a transition table: whatever its handlers do in each own state, on each
call and each received byte (41_bit_engine.md §4; the table is the model's form of a client, log 7). -/
def Obligations.EveryStateMachineIsAClient : Prop :=
  ∀ (n : Nat) (handler : Fin n → HandlerCall → HandlerRun × Fin n) (start : Fin n),
    ∃ p : ClientScript, clientStart (.scripted p) = start.val ∧
      ∀ (q : Fin n) (call : HandlerCall),
        scriptAnswer p q.val call = ((handler q call).1, (handler q call).2.val)

/-- Only SEL, CLK and RST change a client's own state, and only where it has a table (41_bit_engine.md §4;
70_reset_and_hazards.md §1). -/
def Obligations.OwnStateChangesInHandlersOnly : Prop :=
  ∀ (i : Instr) (s t : State), exec i s = .next t → t.clientState ≠ s.clientState →
    i = .rst ∨ ∃ p call, s.cfg.spi.client = .scripted p ∧ handlerCalled i s = some call ∧
      t.clientState = (scriptAnswer p s.clientState call).2

/-! ## How a board starts -/

/-- A board starts through reset: each of its blocks starts as a block does, RST at a transceiver leaves it and the
aggregator as they start, and RST at every transceiver leaves the board as it starts, but for its trace and the model's
own fields (60_exceptions.md §3, 70_reset_and_hazards.md §1; log 11). -/
def Obligations.BoardStartsThroughReset : Prop :=
  ∀ (n : Nat) (agg : AggConfig) (units : Vector SpiConfig n) (b : Board n) (k : Fin n),
    (Board.ofConfig agg units).block k = State.ofConfig { spi := units[k], agg := agg } ∧
    (∃ b', boardExec k .rst b = .next b' ∧ b'.units[k] = Transceiver.ofConfig b.units[k].spi ∧
      b'.aggr = (Board.ofConfig b.agg units).aggr ∧ b'.trace = b.trace) ∧
    boardReset b = .next { Board.ofConfig b.agg (b.units.map Transceiver.spi) with
      trace := b.trace, draws := b.draws, pending := b.pending }
end

