-- ==== Sys2Proof/Laws/Decode.lean ====
section
/-! SUPPORT. The fields of a word built from its fields, operand round trips, and word streams. -/
namespace Sys2Proof

/-- The bits of a word, field by field (30_encoding.md R60). -/
theorem getLsbD_wordOf (op idx : BitVec 4) (d : Byte) (i : Nat) :
    (wordOf op idx d).getLsbD i =
      if i < 8 then d.getLsbD i else if i - 8 < 4 then idx.getLsbD (i - 8) else op.getLsbD (i - 8 - 4) := by
  show ((op ++ idx) ++ d : BitVec (4 + 4 + 8)).getLsbD i = _
  rw [BitVec.getLsbD_append, BitVec.getLsbD_append]

@[simp] theorem opField_wordOf (op idx : BitVec 4) (d : Byte) : opField (wordOf op idx d) = op := by
  apply BitVec.eq_of_getLsbD_eq
  intro i hi
  simp only [opField, BitVec.getLsbD_extractLsb', getLsbD_wordOf, hi, decide_true, Bool.true_and]
  rw [if_neg (by omega), if_neg (by omega), show 12 + i - 8 - 4 = i by omega]

@[simp] theorem idxField_wordOf (op idx : BitVec 4) (d : Byte) : idxField (wordOf op idx d) = idx := by
  apply BitVec.eq_of_getLsbD_eq
  intro i hi
  simp only [idxField, BitVec.getLsbD_extractLsb', getLsbD_wordOf, hi, decide_true, Bool.true_and]
  rw [if_neg (by omega), if_pos (by omega), show 8 + i - 8 = i by omega]

@[simp] theorem dataField_wordOf (op idx : BitVec 4) (d : Byte) : dataField (wordOf op idx d) = d := by
  apply BitVec.eq_of_getLsbD_eq
  intro i hi
  simp only [dataField, BitVec.getLsbD_extractLsb', getLsbD_wordOf, hi, decide_true, Bool.true_and, Nat.zero_add,
    if_true]

/-- A word is its three fields (30_encoding.md R60). -/
@[simp] theorem wordOf_fields (w : Word) : wordOf (opField w) (idxField w) (dataField w) = w := by
  apply BitVec.eq_of_getLsbD_eq
  intro i hi
  simp only [getLsbD_wordOf, opField, idxField, dataField, BitVec.getLsbD_extractLsb']
  split
  · next h => simp [h]
  · split
    · next h h' => rw [decide_eq_true h', Bool.true_and, show 8 + (i - 8) = i by omega]
    · rw [decide_eq_true (by omega), Bool.true_and, show 12 + (i - 8 - 4) = i by omega]

@[simp] theorem levelOperand_levelData (v : Level) : levelOperand (levelData v) = v := by
  cases v <;> decide

@[simp] theorem indexOperand_ofFin (i : SrcIdx) : indexOperand (BitVec.ofFin i) = i := rfl

@[simp] theorem ofFin_indexOperand (b : BitVec 4) : BitVec.ofFin (indexOperand b) = b := rfl

/-- A word read back from its two bytes (30_encoding.md R68). -/
@[simp] theorem takeWord_bytesOfWord (w : Word) (rest : List Byte) :
    takeWord (bytesOfWord w ++ rest) = some (w, rest) := by
  have h : (w.extractLsb' 8 8 ++ w.extractLsb' 0 8 : BitVec (8 + 8)) = w := by
    apply BitVec.eq_of_getLsbD_eq
    intro i hi
    rw [BitVec.getLsbD_append, BitVec.getLsbD_extractLsb', BitVec.getLsbD_extractLsb']
    split
    · next h => simp [h]
    · rw [decide_eq_true (by omega), Bool.true_and, show 8 + (i - 8) = i by omega]
  simp only [bytesOfWord, List.cons_append, List.nil_append, takeWord]
  exact congrArg (fun x => some (x, rest)) h

end Sys2Proof
end

