-- ==== Sys2Proof/Laws/State.lean ====
section
/-! SUPPORT. What each named update does to each field of the state. -/
namespace Sys2Proof.Machine

variable (s : State)

@[simp] theorem setSel_cfg (v : Level) : (setSel v s).cfg = s.cfg := rfl
@[simp] theorem setSel_line (v : Level) : (setSel v s).line = { s.line with sel := v } := rfl
@[simp] theorem setSel_xchg (v : Level) : (setSel v s).xchg = s.xchg := rfl
@[simp] theorem setSel_aggr (v : Level) : (setSel v s).aggr = s.aggr := rfl
@[simp] theorem setSel_kbd (v : Level) : (setSel v s).kbd = s.kbd := rfl
@[simp] theorem setSel_trace (v : Level) : (setSel v s).trace = s.trace := rfl
@[simp] theorem setSel_clientState (v : Level) : (setSel v s).clientState = s.clientState := rfl
@[simp] theorem setSel_draws (v : Level) : (setSel v s).draws = s.draws := rfl
@[simp] theorem setSel_pending (v : Level) : (setSel v s).pending = s.pending := rfl

@[simp] theorem setClk_cfg (v : Level) : (setClk v s).cfg = s.cfg := rfl
@[simp] theorem setClk_line (v : Level) : (setClk v s).line = { s.line with clk := v } := rfl
@[simp] theorem setClk_xchg (v : Level) : (setClk v s).xchg = s.xchg := rfl
@[simp] theorem setClk_aggr (v : Level) : (setClk v s).aggr = s.aggr := rfl
@[simp] theorem setClk_kbd (v : Level) : (setClk v s).kbd = s.kbd := rfl
@[simp] theorem setClk_trace (v : Level) : (setClk v s).trace = s.trace := rfl
@[simp] theorem setClk_clientState (v : Level) : (setClk v s).clientState = s.clientState := rfl
@[simp] theorem setClk_draws (v : Level) : (setClk v s).draws = s.draws := rfl
@[simp] theorem setClk_pending (v : Level) : (setClk v s).pending = s.pending := rfl

@[simp] theorem setMosi_cfg (v : Level) : (setMosi v s).cfg = s.cfg := rfl
@[simp] theorem setMosi_line (v : Level) : (setMosi v s).line = { s.line with mosi := v } := rfl
@[simp] theorem setMosi_xchg (v : Level) : (setMosi v s).xchg = s.xchg := rfl
@[simp] theorem setMosi_aggr (v : Level) : (setMosi v s).aggr = s.aggr := rfl
@[simp] theorem setMosi_kbd (v : Level) : (setMosi v s).kbd = s.kbd := rfl
@[simp] theorem setMosi_trace (v : Level) : (setMosi v s).trace = s.trace := rfl
@[simp] theorem setMosi_clientState (v : Level) : (setMosi v s).clientState = s.clientState := rfl
@[simp] theorem setMosi_draws (v : Level) : (setMosi v s).draws = s.draws := rfl
@[simp] theorem setMosi_pending (v : Level) : (setMosi v s).pending = s.pending := rfl

@[simp] theorem setMiso_cfg (v : Level) : (setMiso v s).cfg = s.cfg := rfl
@[simp] theorem setMiso_line (v : Level) : (setMiso v s).line = { s.line with miso := v } := rfl
@[simp] theorem setMiso_xchg (v : Level) : (setMiso v s).xchg = s.xchg := rfl
@[simp] theorem setMiso_aggr (v : Level) : (setMiso v s).aggr = s.aggr := rfl
@[simp] theorem setMiso_kbd (v : Level) : (setMiso v s).kbd = s.kbd := rfl
@[simp] theorem setMiso_trace (v : Level) : (setMiso v s).trace = s.trace := rfl
@[simp] theorem setMiso_clientState (v : Level) : (setMiso v s).clientState = s.clientState := rfl
@[simp] theorem setMiso_draws (v : Level) : (setMiso v s).draws = s.draws := rfl
@[simp] theorem setMiso_pending (v : Level) : (setMiso v s).pending = s.pending := rfl

@[simp] theorem setRecvShift_cfg (b : Byte) : (setRecvShift b s).cfg = s.cfg := rfl
@[simp] theorem setRecvShift_line (b : Byte) : (setRecvShift b s).line = s.line := rfl
@[simp] theorem setRecvShift_xchg (b : Byte) : (setRecvShift b s).xchg = { s.xchg with recvShift := b } := rfl
@[simp] theorem setRecvShift_aggr (b : Byte) : (setRecvShift b s).aggr = s.aggr := rfl
@[simp] theorem setRecvShift_kbd (b : Byte) : (setRecvShift b s).kbd = s.kbd := rfl
@[simp] theorem setRecvShift_trace (b : Byte) : (setRecvShift b s).trace = s.trace := rfl
@[simp] theorem setRecvShift_clientState (b : Byte) : (setRecvShift b s).clientState = s.clientState := rfl
@[simp] theorem setRecvShift_draws (b : Byte) : (setRecvShift b s).draws = s.draws := rfl
@[simp] theorem setRecvShift_pending (b : Byte) : (setRecvShift b s).pending = s.pending := rfl

@[simp] theorem setSendShift_cfg (b : Byte) : (setSendShift b s).cfg = s.cfg := rfl
@[simp] theorem setSendShift_line (b : Byte) : (setSendShift b s).line = s.line := rfl
@[simp] theorem setSendShift_xchg (b : Byte) : (setSendShift b s).xchg = { s.xchg with sendShift := b } := rfl
@[simp] theorem setSendShift_aggr (b : Byte) : (setSendShift b s).aggr = s.aggr := rfl
@[simp] theorem setSendShift_kbd (b : Byte) : (setSendShift b s).kbd = s.kbd := rfl
@[simp] theorem setSendShift_trace (b : Byte) : (setSendShift b s).trace = s.trace := rfl
@[simp] theorem setSendShift_clientState (b : Byte) : (setSendShift b s).clientState = s.clientState := rfl
@[simp] theorem setSendShift_draws (b : Byte) : (setSendShift b s).draws = s.draws := rfl
@[simp] theorem setSendShift_pending (b : Byte) : (setSendShift b s).pending = s.pending := rfl

@[simp] theorem setRecvCount_cfg (n : Nat) : (setRecvCount n s).cfg = s.cfg := rfl
@[simp] theorem setRecvCount_line (n : Nat) : (setRecvCount n s).line = s.line := rfl
@[simp] theorem setRecvCount_xchg (n : Nat) : (setRecvCount n s).xchg = { s.xchg with recvCount := n } := rfl
@[simp] theorem setRecvCount_aggr (n : Nat) : (setRecvCount n s).aggr = s.aggr := rfl
@[simp] theorem setRecvCount_kbd (n : Nat) : (setRecvCount n s).kbd = s.kbd := rfl
@[simp] theorem setRecvCount_trace (n : Nat) : (setRecvCount n s).trace = s.trace := rfl
@[simp] theorem setRecvCount_clientState (n : Nat) : (setRecvCount n s).clientState = s.clientState := rfl
@[simp] theorem setRecvCount_draws (n : Nat) : (setRecvCount n s).draws = s.draws := rfl
@[simp] theorem setRecvCount_pending (n : Nat) : (setRecvCount n s).pending = s.pending := rfl

@[simp] theorem setSendCount_cfg (n : Nat) : (setSendCount n s).cfg = s.cfg := rfl
@[simp] theorem setSendCount_line (n : Nat) : (setSendCount n s).line = s.line := rfl
@[simp] theorem setSendCount_xchg (n : Nat) : (setSendCount n s).xchg = { s.xchg with sendCount := n } := rfl
@[simp] theorem setSendCount_aggr (n : Nat) : (setSendCount n s).aggr = s.aggr := rfl
@[simp] theorem setSendCount_kbd (n : Nat) : (setSendCount n s).kbd = s.kbd := rfl
@[simp] theorem setSendCount_trace (n : Nat) : (setSendCount n s).trace = s.trace := rfl
@[simp] theorem setSendCount_clientState (n : Nat) : (setSendCount n s).clientState = s.clientState := rfl
@[simp] theorem setSendCount_draws (n : Nat) : (setSendCount n s).draws = s.draws := rfl
@[simp] theorem setSendCount_pending (n : Nat) : (setSendCount n s).pending = s.pending := rfl

@[simp] theorem setFlag_cfg (i : SrcIdx) (v : Level) : (setFlag i v s).cfg = s.cfg := rfl
@[simp] theorem setFlag_line (i : SrcIdx) (v : Level) : (setFlag i v s).line = s.line := rfl
@[simp] theorem setFlag_xchg (i : SrcIdx) (v : Level) : (setFlag i v s).xchg = s.xchg := rfl
@[simp] theorem setFlag_aggr (i : SrcIdx) (v : Level) : (setFlag i v s).aggr = { s.aggr with flag := s.aggr.flag.set i v } := rfl
@[simp] theorem setFlag_kbd (i : SrcIdx) (v : Level) : (setFlag i v s).kbd = s.kbd := rfl
@[simp] theorem setFlag_trace (i : SrcIdx) (v : Level) : (setFlag i v s).trace = s.trace := rfl
@[simp] theorem setFlag_clientState (i : SrcIdx) (v : Level) : (setFlag i v s).clientState = s.clientState := rfl
@[simp] theorem setFlag_draws (i : SrcIdx) (v : Level) : (setFlag i v s).draws = s.draws := rfl
@[simp] theorem setFlag_pending (i : SrcIdx) (v : Level) : (setFlag i v s).pending = s.pending := rfl

@[simp] theorem setAgg_cfg (v : Level) : (setAgg v s).cfg = s.cfg := rfl
@[simp] theorem setAgg_line (v : Level) : (setAgg v s).line = s.line := rfl
@[simp] theorem setAgg_xchg (v : Level) : (setAgg v s).xchg = s.xchg := rfl
@[simp] theorem setAgg_aggr (v : Level) : (setAgg v s).aggr = { s.aggr with agg := v } := rfl
@[simp] theorem setAgg_kbd (v : Level) : (setAgg v s).kbd = s.kbd := rfl
@[simp] theorem setAgg_trace (v : Level) : (setAgg v s).trace = s.trace := rfl
@[simp] theorem setAgg_clientState (v : Level) : (setAgg v s).clientState = s.clientState := rfl
@[simp] theorem setAgg_draws (v : Level) : (setAgg v s).draws = s.draws := rfl
@[simp] theorem setAgg_pending (v : Level) : (setAgg v s).pending = s.pending := rfl

@[simp] theorem setKbd_cfg (k : KeyboardState) : (setKbd k s).cfg = s.cfg := rfl
@[simp] theorem setKbd_line (k : KeyboardState) : (setKbd k s).line = s.line := rfl
@[simp] theorem setKbd_xchg (k : KeyboardState) : (setKbd k s).xchg = s.xchg := rfl
@[simp] theorem setKbd_aggr (k : KeyboardState) : (setKbd k s).aggr = s.aggr := rfl
@[simp] theorem setKbd_kbd (k : KeyboardState) : (setKbd k s).kbd = k := rfl
@[simp] theorem setKbd_trace (k : KeyboardState) : (setKbd k s).trace = s.trace := rfl
@[simp] theorem setKbd_clientState (k : KeyboardState) : (setKbd k s).clientState = s.clientState := rfl
@[simp] theorem setKbd_draws (k : KeyboardState) : (setKbd k s).draws = s.draws := rfl
@[simp] theorem setKbd_pending (k : KeyboardState) : (setKbd k s).pending = s.pending := rfl

@[simp] theorem setClientState_cfg (q : Nat) : (setClientState q s).cfg = s.cfg := rfl
@[simp] theorem setClientState_line (q : Nat) : (setClientState q s).line = s.line := rfl
@[simp] theorem setClientState_xchg (q : Nat) : (setClientState q s).xchg = s.xchg := rfl
@[simp] theorem setClientState_aggr (q : Nat) : (setClientState q s).aggr = s.aggr := rfl
@[simp] theorem setClientState_kbd (q : Nat) : (setClientState q s).kbd = s.kbd := rfl
@[simp] theorem setClientState_trace (q : Nat) : (setClientState q s).trace = s.trace := rfl
@[simp] theorem setClientState_clientState (q : Nat) : (setClientState q s).clientState = q := rfl
@[simp] theorem setClientState_draws (q : Nat) : (setClientState q s).draws = s.draws := rfl
@[simp] theorem setClientState_pending (q : Nat) : (setClientState q s).pending = s.pending := rfl

@[simp] theorem setDraws_cfg (n : Nat) : (setDraws n s).cfg = s.cfg := rfl
@[simp] theorem setDraws_line (n : Nat) : (setDraws n s).line = s.line := rfl
@[simp] theorem setDraws_xchg (n : Nat) : (setDraws n s).xchg = s.xchg := rfl
@[simp] theorem setDraws_aggr (n : Nat) : (setDraws n s).aggr = s.aggr := rfl
@[simp] theorem setDraws_kbd (n : Nat) : (setDraws n s).kbd = s.kbd := rfl
@[simp] theorem setDraws_trace (n : Nat) : (setDraws n s).trace = s.trace := rfl
@[simp] theorem setDraws_clientState (n : Nat) : (setDraws n s).clientState = s.clientState := rfl
@[simp] theorem setDraws_draws (n : Nat) : (setDraws n s).draws = n := rfl
@[simp] theorem setDraws_pending (n : Nat) : (setDraws n s).pending = s.pending := rfl

@[simp] theorem setPending_cfg (ws : List Word) : (setPending ws s).cfg = s.cfg := rfl
@[simp] theorem setPending_line (ws : List Word) : (setPending ws s).line = s.line := rfl
@[simp] theorem setPending_xchg (ws : List Word) : (setPending ws s).xchg = s.xchg := rfl
@[simp] theorem setPending_aggr (ws : List Word) : (setPending ws s).aggr = s.aggr := rfl
@[simp] theorem setPending_kbd (ws : List Word) : (setPending ws s).kbd = s.kbd := rfl
@[simp] theorem setPending_trace (ws : List Word) : (setPending ws s).trace = s.trace := rfl
@[simp] theorem setPending_clientState (ws : List Word) : (setPending ws s).clientState = s.clientState := rfl
@[simp] theorem setPending_draws (ws : List Word) : (setPending ws s).draws = s.draws := rfl
@[simp] theorem setPending_pending (ws : List Word) : (setPending ws s).pending = ws := rfl

@[simp] theorem emit_cfg (e : Event) : (emit e s).cfg = s.cfg := rfl
@[simp] theorem emit_line (e : Event) : (emit e s).line = s.line := rfl
@[simp] theorem emit_xchg (e : Event) : (emit e s).xchg = s.xchg := rfl
@[simp] theorem emit_aggr (e : Event) : (emit e s).aggr = s.aggr := rfl
@[simp] theorem emit_kbd (e : Event) : (emit e s).kbd = s.kbd := rfl
@[simp] theorem emit_trace (e : Event) : (emit e s).trace = s.trace ++ [e] := rfl
@[simp] theorem emit_clientState (e : Event) : (emit e s).clientState = s.clientState := rfl
@[simp] theorem emit_draws (e : Event) : (emit e s).draws = s.draws := rfl
@[simp] theorem emit_pending (e : Event) : (emit e s).pending = s.pending := rfl

@[simp] theorem armByte_cfg (b : Byte) : (armByte b s).cfg = s.cfg := rfl
@[simp] theorem armByte_line (b : Byte) : (armByte b s).line = { s.line with miso := head s.cfg.spi.bitOrder b } := rfl
@[simp] theorem armByte_xchg (b : Byte) : (armByte b s).xchg = { s.xchg with sendShift := b } := rfl
@[simp] theorem armByte_aggr (b : Byte) : (armByte b s).aggr = s.aggr := rfl
@[simp] theorem armByte_kbd (b : Byte) : (armByte b s).kbd = s.kbd := rfl
@[simp] theorem armByte_trace (b : Byte) : (armByte b s).trace = s.trace := rfl
@[simp] theorem armByte_clientState (b : Byte) : (armByte b s).clientState = s.clientState := rfl
@[simp] theorem armByte_draws (b : Byte) : (armByte b s).draws = s.draws := rfl
@[simp] theorem armByte_pending (b : Byte) : (armByte b s).pending = s.pending := rfl

@[simp] theorem sample_cfg : (sample s).cfg = s.cfg := rfl
@[simp] theorem sample_line : (sample s).line = s.line := rfl
@[simp] theorem sample_xchg : (sample s).xchg = { s.xchg with recvShift := shin s.cfg.spi.bitOrder s.xchg.recvShift s.line.mosi, recvCount := s.xchg.recvCount + 1 } := rfl
@[simp] theorem sample_aggr : (sample s).aggr = s.aggr := rfl
@[simp] theorem sample_kbd : (sample s).kbd = s.kbd := rfl
@[simp] theorem sample_trace : (sample s).trace = s.trace := rfl
@[simp] theorem sample_clientState : (sample s).clientState = s.clientState := rfl
@[simp] theorem sample_draws : (sample s).draws = s.draws := rfl
@[simp] theorem sample_pending : (sample s).pending = s.pending := rfl

@[simp] theorem resetBlock_cfg : (resetBlock s).cfg = s.cfg := rfl
@[simp] theorem resetBlock_line : (resetBlock s).line = ⟨false, cpol s.cfg.spi, false, false⟩ := rfl
@[simp] theorem resetBlock_xchg : (resetBlock s).xchg = ⟨0, 0, 0, 0⟩ := rfl
@[simp] theorem resetBlock_aggr : (resetBlock s).aggr = ⟨Vector.replicate 16 false, false⟩ := rfl
@[simp] theorem resetBlock_kbd : (resetBlock s).kbd = KeyboardState.reset := rfl
@[simp] theorem resetBlock_trace : (resetBlock s).trace = s.trace := rfl
@[simp] theorem resetBlock_clientState : (resetBlock s).clientState = clientStart s.cfg.spi.client := rfl
@[simp] theorem resetBlock_draws : (resetBlock s).draws = s.draws := rfl
@[simp] theorem resetBlock_pending : (resetBlock s).pending = s.pending := rfl

@[simp] theorem endByte_cfg : (endByte s).cfg = s.cfg := rfl
@[simp] theorem endByte_line : (endByte s).line = { s.line with miso := head s.cfg.spi.bitOrder 0 } := rfl
@[simp] theorem endByte_xchg : (endByte s).xchg = { s.xchg with sendShift := 0, recvCount := 0, sendCount := 0 } := rfl
@[simp] theorem endByte_aggr : (endByte s).aggr = s.aggr := rfl
@[simp] theorem endByte_kbd : (endByte s).kbd = s.kbd := rfl
@[simp] theorem endByte_trace : (endByte s).trace = s.trace ++ [.byteExchanged s.xchg.recvShift] := rfl
@[simp] theorem endByte_clientState : (endByte s).clientState = s.clientState := rfl
@[simp] theorem endByte_draws : (endByte s).draws = s.draws := rfl
@[simp] theorem endByte_pending : (endByte s).pending = s.pending := rfl

end Sys2Proof.Machine
end

