-- ==== Sys2Proof/Laws/Ops.lean ====
section
/-! SUPPORT. One lemma per shared operation, saying everything it can do. -/
namespace Sys2Proof.Machine

/-! ## Outcomes -/

section Outcomes
variable {α β : Type}

@[simp] theorem andThen_next (a : α) (f : α → Host.Outcome β Fault Refusal) : andThen (.next a) f = f a := rfl

@[simp] theorem andThen_fault (r : Fault) (f : α → Host.Outcome β Fault Refusal) :
    andThen (.fault r) f = .fault r := rfl

@[simp] theorem andThen_refused (r : Refusal) (f : α → Host.Outcome β Fault Refusal) :
    andThen (.refused r) f = .refused r := rfl

theorem andThen_eq_next {o : Host.Outcome α Fault Refusal} {f : α → Host.Outcome β Fault Refusal} {b : β} :
    andThen o f = .next b ↔ ∃ a, o = .next a ∧ f a = .next b := by
  cases o <;> simp [andThen]

theorem andThen_eq_fault {o : Host.Outcome α Fault Refusal} {f : α → Host.Outcome β Fault Refusal} {r : Fault} :
    andThen o f = .fault r ↔ o = .fault r ∨ ∃ a, o = .next a ∧ f a = .fault r := by
  cases o <;> simp [andThen]

end Outcomes

/-! ## The aggregator -/

theorem setFlag_read (s : State) (i j : SrcIdx) (v : Level) :
    (setFlag i v s).aggr.flag[j] = if i = j then v else s.aggr.flag[j] := by
  simp [Vector.getElem_set, Fin.ext_iff]

theorem wiredOr_iff (c : AggConfig) (f : Vector Level 16) :
    wiredOr c f = true ↔ ∃ i : SrcIdx, hasSource c i = true ∧ f[i] = true := by
  simp [wiredOr]

theorem wiredOr_false_iff (c : AggConfig) (f : Vector Level 16) :
    wiredOr c f = false ↔ ∀ i : SrcIdx, hasSource c i = true → f[i] = false := by
  rw [← Bool.not_eq_true, wiredOr_iff]; simp

/-- RECOMPUTE sets `agg` to the OR and says so exactly when that changes it (43_interrupt_aggregator.md R203). -/
theorem recompute_eq (s : State) :
    recompute s = { s with
      aggr := { s.aggr with agg := wiredOr s.cfg.agg s.aggr.flag }
      trace := if wiredOr s.cfg.agg s.aggr.flag = s.aggr.agg then s.trace
        else s.trace ++ [.irqChange (wiredOr s.cfg.agg s.aggr.flag)] } := by
  unfold recompute
  simp only
  split
  · next h => simp [h]
  · simp [emit, setAgg]

@[simp] theorem recompute_cfg (s : State) : (recompute s).cfg = s.cfg := by rw [recompute_eq]
@[simp] theorem recompute_line (s : State) : (recompute s).line = s.line := by rw [recompute_eq]
@[simp] theorem recompute_xchg (s : State) : (recompute s).xchg = s.xchg := by rw [recompute_eq]
@[simp] theorem recompute_aggr (s : State) :
    (recompute s).aggr = { s.aggr with agg := wiredOr s.cfg.agg s.aggr.flag } := by rw [recompute_eq]
@[simp] theorem recompute_kbd (s : State) : (recompute s).kbd = s.kbd := by rw [recompute_eq]
@[simp] theorem recompute_clientState (s : State) : (recompute s).clientState = s.clientState := by rw [recompute_eq]
@[simp] theorem recompute_draws (s : State) : (recompute s).draws = s.draws := by rw [recompute_eq]
@[simp] theorem recompute_pending (s : State) : (recompute s).pending = s.pending := by rw [recompute_eq]
theorem recompute_trace (s : State) :
    (recompute s).trace = if wiredOr s.cfg.agg s.aggr.flag = s.aggr.agg then s.trace
      else s.trace ++ [.irqChange (wiredOr s.cfg.agg s.aggr.flag)] := by rw [recompute_eq]

theorem setSource_of_has {i : SrcIdx} {s : State} (h : hasSource s.cfg.agg i = true) (raw : Level) :
    setSource i raw s = .next (recompute (setFlag i (logicalFlag s.cfg.agg i raw) s)) := by
  simp [setSource, h]

/-- All that `set_source` can answer (43_interrupt_aggregator.md R202, 30_encoding.md R66). -/
theorem setSource_cases (i : SrcIdx) (raw : Level) (s : State) :
    (hasSource s.cfg.agg i = true ∧
      setSource i raw s = .next (recompute (setFlag i (logicalFlag s.cfg.agg i raw) s))) ∨
    (hasSource s.cfg.agg i = false ∧ setSource i raw s = .refused .noSuchSource) := by
  unfold setSource; split <;> simp_all

theorem setSource_eq_next {i : SrcIdx} {raw : Level} {s t : State} :
    setSource i raw s = .next t ↔
      hasSource s.cfg.agg i = true ∧ recompute (setFlag i (logicalFlag s.cfg.agg i raw) s) = t := by
  unfold setSource; split <;> simp_all

/-! ## What a client handler leaves alone -/

/-- t has the configuration, exchange state, lines and pending words of s: all that no handler can change
(41_bit_engine.md R143). -/
structure SameBlock (s t : State) : Prop where
  cfg : t.cfg = s.cfg
  line : t.line = s.line
  xchg : t.xchg = s.xchg
  pending : t.pending = s.pending

theorem SameBlock.rfl {s : State} : SameBlock s s := ⟨Eq.refl _, Eq.refl _, Eq.refl _, Eq.refl _⟩

theorem SameBlock.trans {s t u : State} (h : SameBlock s t) (k : SameBlock t u) : SameBlock s u :=
  ⟨k.cfg.trans h.cfg, k.line.trans h.line, k.xchg.trans h.xchg, k.pending.trans h.pending⟩

theorem setSource_same {i : SrcIdx} {raw : Level} {s t : State} (h : setSource i raw s = .next t) :
    SameBlock s t := by
  obtain ⟨-, rfl⟩ := setSource_eq_next.1 h
  constructor <;> simp

theorem runActions_same {as : List ClientAction} {s t : State} (h : runActions as s = .next t) : SameBlock s t := by
  induction as generalizing s with
  | nil => cases h; exact .rfl
  | cons a as ih =>
    cases a with
    | setSource i raw =>
      obtain ⟨u, hu, hr⟩ := andThen_eq_next.1 h
      exact (setSource_same hu).trans (ih hr)
    | reenter w => cases h

/-- A scripted client's actions touch the aggregator and the trace only. -/
theorem runActions_keeps {as : List ClientAction} {s t : State} (h : runActions as s = .next t) :
    t.kbd = s.kbd ∧ t.clientState = s.clientState ∧ t.draws = s.draws := by
  induction as generalizing s with
  | nil => cases h; simp
  | cons a as ih =>
    cases a with
    | setSource i raw =>
      obtain ⟨u, hu, hr⟩ := andThen_eq_next.1 h
      obtain ⟨-, rfl⟩ := setSource_eq_next.1 hu
      simpa using ih hr
    | reenter w => cases h

/-- Allowed actions always complete (41_bit_engine.md R143). -/
theorem runActions_completes {as : List ClientAction} {s : State}
    (h : as.all (ClientAction.allowed s.cfg.agg) = true) : ∃ t, runActions as s = .next t := by
  induction as generalizing s with
  | nil => exact ⟨s, rfl⟩
  | cons a as ih =>
    simp only [List.all_cons, Bool.and_eq_true] at h
    cases a with
    | setSource i raw =>
      have hi : hasSource s.cfg.agg i = true := h.1
      simp only [runActions, setSource_of_has hi, andThen_next]
      exact ih (by simpa using h.2)
    | reenter w => simp [ClientAction.allowed] at h

/-! ## The keyboard client -/

theorem setKirq_eq_next {v : Level} {s t : State} :
    setKirq v s = .next t ↔ hasSource s.cfg.agg s.cfg.spi.kbdSrc = true ∧
      recompute (setFlag s.cfg.spi.kbdSrc v (setKbd { s.kbd with kirq := v } s)) = t := by
  simp [setKirq, setSource_eq_next, logicalFlag]

theorem setKirq_same {v : Level} {s t : State} (h : setKirq v s = .next t) : SameBlock s t := by
  obtain ⟨-, rfl⟩ := setKirq_eq_next.1 h
  constructor <;> simp

theorem clearBuffer_eq_next {s t : State} :
    clearBuffer s = .next t ↔ hasSource s.cfg.agg s.cfg.spi.kbdSrc = true ∧
      recompute (setFlag s.cfg.spi.kbdSrc false
        (setKbd { s.kbd with scancodeBuffer := 0, bufferFull := false, kirq := false } s)) = t := by
  simp [clearBuffer, setKirq_eq_next, setKbd]

/-- All that the keyboard's `on_byte_exchanged` can answer as a next state (42_keyboard_client.md R174 to R179). -/
theorem keyboardByte_cases {rx : Byte} {s t : State} {b : Byte} (h : keyboardByte rx s = .next (t, b)) :
    (s.kbd.kstate = .newlySelected ∧ rx.getLsbD 7 = false ∧ b = s.kbd.scancodeBuffer ∧
      clearBuffer (setKbd { s.kbd with kstate := .readyToRead } s) = .next t) ∨
    (s.kbd.kstate = .newlySelected ∧ rx.getLsbD 7 = true ∧ rx.extractLsb' 0 7 = 0 ∧ b = 0 ∧
      clearBuffer (setKbd { s.kbd with kstate := .readyToRespond } s) = .next t) ∨
    (s.kbd.kstate = .newlySelected ∧ rx.getLsbD 7 = true ∧ rx.extractLsb' 0 7 = 1 ∧
      b = (if s.kbd.bufferFull then 0xFF else 0x00) ∧ t = setKbd { s.kbd with kstate := .readyToRespond } s) ∨
    (s.kbd.kstate = .newlySelected ∧ rx.getLsbD 7 = true ∧ rx.extractLsb' 0 7 ≠ 0 ∧ rx.extractLsb' 0 7 ≠ 1 ∧
      b = Config.kbdUnknownResponse s.draws ∧
      t = setDraws (s.draws + 1) (setKbd { s.kbd with kstate := .readyToRespond } s)) ∨
    ((s.kbd.kstate = .readyToRead ∨ s.kbd.kstate = .readyToRespond) ∧ b = 0 ∧
      t = setKbd { s.kbd with kstate := .done } s) ∨
    ((s.kbd.kstate = .done ∨ s.kbd.kstate = .notSelected) ∧ b = 0 ∧ t = s) := by
  unfold keyboardByte at h
  split at h
  · next hk =>
    split at h
    · next h7 =>
      unfold keyboardControl controlCode at h
      split at h
      · next h0 =>
        obtain ⟨u, hu, he⟩ := andThen_eq_next.1 h
        cases he
        exact .inr (.inl ⟨hk, h7, h0, rfl, hu⟩)
      · next h0 =>
        split at h
        · next h1 => cases h; exact .inr (.inr (.inl ⟨hk, h7, h1, rfl, rfl⟩))
        · next h1 => cases h; exact .inr (.inr (.inr (.inl ⟨hk, h7, h0, h1, rfl, rfl⟩)))
    · next h7 =>
      obtain ⟨u, hu, he⟩ := andThen_eq_next.1 h
      cases he
      exact .inl ⟨hk, by simpa using h7, rfl, hu⟩
  · next hk => cases h; exact .inr (.inr (.inr (.inr (.inl ⟨.inl hk, rfl, rfl⟩))))
  · next hk => cases h; exact .inr (.inr (.inr (.inr (.inl ⟨.inr hk, rfl, rfl⟩))))
  · next hk => cases h; exact .inr (.inr (.inr (.inr (.inr ⟨.inl hk, rfl, rfl⟩))))
  · next hk => cases h; exact .inr (.inr (.inr (.inr (.inr ⟨.inr hk, rfl, rfl⟩))))

theorem clearBuffer_same {s t : State} (h : clearBuffer s = .next t) : SameBlock s t := by
  obtain ⟨-, rfl⟩ := clearBuffer_eq_next.1 h
  constructor <;> simp

theorem keyboardByte_same {rx : Byte} {s t : State} {b : Byte} (h : keyboardByte rx s = .next (t, b)) :
    SameBlock s t := by
  rcases keyboardByte_cases h with ⟨-, -, -, h⟩ | ⟨-, -, -, -, h⟩ | ⟨-, -, -, -, rfl⟩ | ⟨-, -, -, -, -, rfl⟩ |
    ⟨-, -, rfl⟩ | ⟨-, -, rfl⟩
  · have := clearBuffer_same h; constructor <;> simp [this.cfg, this.line, this.xchg, this.pending]
  · have := clearBuffer_same h; constructor <;> simp [this.cfg, this.line, this.xchg, this.pending]
  all_goals constructor <;> simp

/-- The keyboard's handler completes when the client's input exists (42_keyboard_client.md R174). -/
theorem keyboardByte_completes {rx : Byte} {s : State} (h : hasSource s.cfg.agg s.cfg.spi.kbdSrc = true) :
    ∃ t b, keyboardByte rx s = .next (t, b) := by
  have hc : ∀ u : State, u.cfg = s.cfg → ∃ t, clearBuffer u = .next t := fun u hu =>
    ⟨_, clearBuffer_eq_next.2 ⟨hu ▸ h, rfl⟩⟩
  unfold keyboardByte
  split
  · split
    · unfold keyboardControl controlCode
      split
      · obtain ⟨t, ht⟩ := hc (setKbd { s.kbd with kstate := .readyToRespond } s) rfl
        simp [ht]
      · split <;> exact ⟨_, _, rfl⟩
    · obtain ⟨t, ht⟩ := hc (setKbd { s.kbd with kstate := .readyToRead } s) rfl
      simp [keyboardRead, ht]
  all_goals exact ⟨_, _, rfl⟩

/-! ## The three handlers -/

theorem scriptedCall_eq_next {p : ClientScript} {call : HandlerCall} {s t : State} {r : Option Byte} :
    scriptedCall p call s = .next (t, r) ↔
      r = (scriptAnswer p s.clientState call).1.reply ∧
      runActions (scriptAnswer p s.clientState call).1.actions
        (setClientState (scriptAnswer p s.clientState call).2 s) = .next t := by
  unfold scriptedCall
  constructor
  · intro h
    obtain ⟨u, hu, he⟩ := andThen_eq_next.1 h
    cases he
    exact ⟨rfl, hu⟩
  · rintro ⟨rfl, h⟩
    simp [h]

theorem scriptedCall_same {p : ClientScript} {call : HandlerCall} {s t : State} {r : Option Byte}
    (h : scriptedCall p call s = .next (t, r)) : SameBlock s t := by
  have := runActions_same (scriptedCall_eq_next.1 h).2
  constructor <;> simp [this.cfg, this.line, this.xchg, this.pending]

theorem onSelect_eq_next {s t : State} (h : onSelect s = .next t) :
    (s.cfg.spi.client = .null ∧ t = s) ∨
    (s.cfg.spi.client = .keyboard ∧ t = setKbd { s.kbd with kstate := .newlySelected } s) ∨
    (∃ p, s.cfg.spi.client = .scripted p ∧ ∃ r, scriptedCall p .onSelect s = .next (t, r)) := by
  unfold onSelect at h
  split at h
  · next hc => cases h; exact .inl ⟨hc, rfl⟩
  · next hc => cases h; exact .inr (.inl ⟨hc, rfl⟩)
  · next hc =>
    obtain ⟨⟨u, r⟩, hu, he⟩ := andThen_eq_next.1 h
    cases he
    exact .inr (.inr ⟨_, hc, r, hu⟩)

theorem onDeselect_eq_next {s t : State} (h : onDeselect s = .next t) :
    (s.cfg.spi.client = .null ∧ t = s) ∨
    (s.cfg.spi.client = .keyboard ∧ t = setKbd { s.kbd with kstate := .notSelected } s) ∨
    (∃ p, s.cfg.spi.client = .scripted p ∧ ∃ r, scriptedCall p .onDeselect s = .next (t, r)) := by
  unfold onDeselect at h
  split at h
  · next hc => cases h; exact .inl ⟨hc, rfl⟩
  · next hc => cases h; exact .inr (.inl ⟨hc, rfl⟩)
  · next hc =>
    obtain ⟨⟨u, r⟩, hu, he⟩ := andThen_eq_next.1 h
    cases he
    exact .inr (.inr ⟨_, hc, r, hu⟩)

theorem onByteExchanged_eq_next {rx : Byte} {s t : State} {r : Option Byte}
    (h : onByteExchanged rx s = .next (t, r)) :
    (s.cfg.spi.client = .null ∧ t = s ∧ r = none) ∨
    (s.cfg.spi.client = .keyboard ∧ ∃ b, r = some b ∧ keyboardByte rx s = .next (t, b)) ∨
    (∃ p, s.cfg.spi.client = .scripted p ∧ scriptedCall p (.onByteExchanged rx) s = .next (t, r)) := by
  unfold onByteExchanged at h
  split at h
  · next hc => cases h; exact .inl ⟨hc, rfl, rfl⟩
  · next hc =>
    obtain ⟨⟨u, b⟩, hu, he⟩ := andThen_eq_next.1 h
    cases he
    exact .inr (.inl ⟨hc, b, rfl, hu⟩)
  · next hc => exact .inr (.inr ⟨_, hc, h⟩)

theorem onSelect_same {s t : State} (h : onSelect s = .next t) : SameBlock s t := by
  rcases onSelect_eq_next h with ⟨-, rfl⟩ | ⟨-, rfl⟩ | ⟨p, -, r, h⟩
  · exact .rfl
  · constructor <;> simp
  · exact scriptedCall_same h

theorem onDeselect_same {s t : State} (h : onDeselect s = .next t) : SameBlock s t := by
  rcases onDeselect_eq_next h with ⟨-, rfl⟩ | ⟨-, rfl⟩ | ⟨p, -, r, h⟩
  · exact .rfl
  · constructor <;> simp
  · exact scriptedCall_same h

theorem onByteExchanged_same {rx : Byte} {s t : State} {r : Option Byte}
    (h : onByteExchanged rx s = .next (t, r)) : SameBlock s t := by
  rcases onByteExchanged_eq_next h with ⟨-, rfl, -⟩ | ⟨-, b, -, h⟩ | ⟨p, -, h⟩
  · exact .rfl
  · exact keyboardByte_same h
  · exact scriptedCall_same h

theorem scriptedCall_completes {p : ClientScript} {call : HandlerCall} {s : State}
    (h : (scriptAnswer p s.clientState call).1.actions.all (ClientAction.allowed s.cfg.agg) = true) :
    ∃ t r, scriptedCall p call s = .next (t, r) := by
  obtain ⟨t, ht⟩ := runActions_completes
    (s := setClientState (scriptAnswer p s.clientState call).2 s) (by simpa using h)
  exact ⟨t, _, scriptedCall_eq_next.2 ⟨rfl, ht⟩⟩

theorem onByteExchanged_completes {rx : Byte} {s : State} (h : handlerReady (.onByteExchanged rx) s = true) :
    ∃ t r, onByteExchanged rx s = .next (t, r) := by
  unfold onByteExchanged
  split
  · exact ⟨_, _, rfl⟩
  · next hc =>
    obtain ⟨t, b, ht⟩ := keyboardByte_completes (rx := rx) (s := s) (by simpa [handlerReady, hc] using h)
    exact ⟨t, some b, by simp [ht]⟩
  · next p hc => exact scriptedCall_completes (by simpa [handlerReady, hc] using h)

theorem onSelect_completes {s : State} (h : handlerReady .onSelect s = true) : ∃ t, onSelect s = .next t := by
  unfold onSelect
  split
  · exact ⟨_, rfl⟩
  · exact ⟨_, rfl⟩
  · next p hc =>
    obtain ⟨t, r, ht⟩ := scriptedCall_completes (p := p) (call := .onSelect) (s := s) (by simpa [handlerReady, hc] using h)
    exact ⟨t, by simp [ht]⟩

theorem onDeselect_completes {s : State} (h : handlerReady .onDeselect s = true) : ∃ t, onDeselect s = .next t := by
  unfold onDeselect
  split
  · exact ⟨_, rfl⟩
  · exact ⟨_, rfl⟩
  · next p hc =>
    obtain ⟨t, r, ht⟩ := scriptedCall_completes (p := p) (call := .onDeselect) (s := s)
      (by simpa [handlerReady, hc] using h)
    exact ⟨t, by simp [ht]⟩

/-! ## The bit engine -/

@[simp] theorem shift_cfg (s : State) : (shift s).cfg = s.cfg := rfl
@[simp] theorem shift_aggr (s : State) : (shift s).aggr = s.aggr := rfl
@[simp] theorem shift_kbd (s : State) : (shift s).kbd = s.kbd := rfl
@[simp] theorem shift_trace (s : State) : (shift s).trace = s.trace := rfl
@[simp] theorem shift_clientState (s : State) : (shift s).clientState = s.clientState := rfl
@[simp] theorem shift_draws (s : State) : (shift s).draws = s.draws := rfl
@[simp] theorem shift_pending (s : State) : (shift s).pending = s.pending := rfl
theorem shift_line (s : State) : (shift s).line = { s.line with
    miso := head s.cfg.spi.bitOrder
      (if cpha s.cfg.spi then s.xchg.sendShift else adv s.cfg.spi.bitOrder s.xchg.sendShift) } := rfl
theorem shift_xchg (s : State) : (shift s).xchg = { s.xchg with
    sendShift := adv s.cfg.spi.bitOrder s.xchg.sendShift, sendCount := s.xchg.sendCount + 1 } := rfl

@[simp] theorem head_zero (o : BitOrder) : head o 0#8 = false := by cases o <;> rfl

/-- The rule's other form: a sample edge exactly when `level ^ CPOL ^ CPHA = 1` is a fact about four bits
(41_bit_engine.md R133). -/
theorem isSampleEdge_not (c : SpiConfig) (v : Level) : isSampleEdge c (!v) = !isSampleEdge c v := by
  simp only [isSampleEdge, isLeading, act]
  cases cpol c <;> cases cpha c <;> cases v <;> rfl

end Sys2Proof.Machine
end

