-- ==== Sys2Proof/Laws/Handlers.lean ====
section
/-! SUPPORT. What a client handler is made of, once: whatever holds of `AGG.set_source` and of the client's own state
updates, and composes, holds of every handler call. And what that says of the trace and of the aggregator. -/
namespace Sys2Proof.Machine

/-- A relation between the state before and after that every part of a handler call respects (41_bit_engine.md R143). -/
structure HandlerStep (P : State → State → Prop) : Prop where
  same : ∀ s, P s s
  trans : ∀ {s t u}, P s t → P t u → P s u
  source : ∀ {i raw s t}, setSource i raw s = .next t → P s t
  kbd : ∀ s k, P s (setKbd k s)
  client : ∀ s q, P s (setClientState q s)
  draws : ∀ s n, P s (setDraws n s)

section
variable {P : State → State → Prop}

theorem HandlerStep.runActions (hP : HandlerStep P) {as : List ClientAction} {s t : State}
    (h : runActions as s = .next t) : P s t := by
  induction as generalizing s with
  | nil => cases h; exact hP.same _
  | cons a as ih =>
    cases a with
    | setSource i raw =>
      obtain ⟨u, hu, hr⟩ := andThen_eq_next.1 h
      exact hP.trans (hP.source hu) (ih hr)
    | reenter w => cases h

theorem HandlerStep.scriptedCall (hP : HandlerStep P) {p : ClientScript} {call : HandlerCall} {s t : State}
    {r : Option Byte} (h : scriptedCall p call s = .next (t, r)) : P s t :=
  hP.trans (hP.client s _) (hP.runActions (scriptedCall_eq_next.1 h).2)

theorem HandlerStep.setKirq (hP : HandlerStep P) {v : Level} {s t : State} (h : setKirq v s = .next t) : P s t :=
  hP.trans (hP.kbd s _) (hP.source h)

theorem HandlerStep.clearBuffer (hP : HandlerStep P) {s t : State} (h : clearBuffer s = .next t) : P s t :=
  hP.trans (hP.kbd s _) (hP.setKirq h)

theorem HandlerStep.keyboardByte (hP : HandlerStep P) {rx : Byte} {s t : State} {b : Byte}
    (h : keyboardByte rx s = .next (t, b)) : P s t := by
  rcases keyboardByte_cases h with ⟨-, -, -, h⟩ | ⟨-, -, -, -, h⟩ | ⟨-, -, -, -, rfl⟩ | ⟨-, -, -, -, -, rfl⟩ |
    ⟨-, -, rfl⟩ | ⟨-, -, rfl⟩
  · exact hP.trans (hP.kbd s _) (hP.clearBuffer h)
  · exact hP.trans (hP.kbd s _) (hP.clearBuffer h)
  · exact hP.kbd s _
  · exact hP.trans (hP.kbd s _) (hP.draws _ _)
  · exact hP.kbd s _
  · exact hP.same _

theorem HandlerStep.onSelect (hP : HandlerStep P) {s t : State} (h : onSelect s = .next t) : P s t := by
  rcases onSelect_eq_next h with ⟨-, rfl⟩ | ⟨-, rfl⟩ | ⟨p, -, r, h⟩
  · exact hP.same _
  · exact hP.kbd s _
  · exact hP.scriptedCall h

theorem HandlerStep.onDeselect (hP : HandlerStep P) {s t : State} (h : onDeselect s = .next t) : P s t := by
  rcases onDeselect_eq_next h with ⟨-, rfl⟩ | ⟨-, rfl⟩ | ⟨p, -, r, h⟩
  · exact hP.same _
  · exact hP.kbd s _
  · exact hP.scriptedCall h

theorem HandlerStep.onByteExchanged (hP : HandlerStep P) {rx : Byte} {s t : State} {r : Option Byte}
    (h : onByteExchanged rx s = .next (t, r)) : P s t := by
  rcases onByteExchanged_eq_next h with ⟨-, rfl, -⟩ | ⟨-, b, -, h⟩ | ⟨p, -, h⟩
  · exact hP.same _
  · exact hP.keyboardByte h
  · exact hP.scriptedCall h

end

/-! ## The trace -/

theorem levelAfter_append (v : Level) (xs ys : List Event) :
    levelAfter v (xs ++ ys) = levelAfter (levelAfter v xs) ys := by
  induction xs generalizing v with
  | nil => rfl
  | cons e xs ih => cases e <;> simp only [List.cons_append, levelAfter, ih]

theorem changesOnly_append (v : Level) (xs ys : List Event) :
    changesOnly v (xs ++ ys) = (changesOnly v xs && changesOnly (levelAfter v xs) ys) := by
  induction xs generalizing v with
  | nil => rfl
  | cons e xs ih => cases e <;> simp only [List.cons_append, changesOnly, levelAfter, ih, Bool.and_assoc]

/-- The trace grew by events that tell the changes of `agg` (43_interrupt_aggregator.md R204). -/
def TraceTells (s t : State) : Prop :=
  ∃ es, t.trace = s.trace ++ es ∧ changesOnly s.aggr.agg es = true ∧ levelAfter s.aggr.agg es = t.aggr.agg

theorem TraceTells.of_eq {s t : State} (ht : t.trace = s.trace) (ha : t.aggr.agg = s.aggr.agg) : TraceTells s t :=
  ⟨[], by simp [ht], rfl, ha.symm⟩

/-- One more event that is no `IrqChange`. -/
theorem TraceTells.of_event {s t : State} {e : Event} (ht : t.trace = s.trace ++ [e])
    (he : ∀ v, e ≠ .irqChange v) (ha : t.aggr.agg = s.aggr.agg) : TraceTells s t := by
  refine ⟨[e], ht, ?_, ?_⟩
  · cases e <;> first | rfl | exact absurd rfl (he _)
  · rw [ha]
    cases e <;> first | rfl | exact absurd rfl (he _)

theorem TraceTells.trans {s t u : State} (h : TraceTells s t) (k : TraceTells t u) : TraceTells s u := by
  obtain ⟨xs, h1, h2, h3⟩ := h
  obtain ⟨ys, k1, k2, k3⟩ := k
  refine ⟨xs ++ ys, by rw [k1, h1, List.append_assoc], ?_, ?_⟩
  · rw [changesOnly_append, h2, h3, k2]; rfl
  · rw [levelAfter_append, h3, k3]

theorem recompute_tells (s : State) : TraceTells s (recompute s) := by
  by_cases h : wiredOr s.cfg.agg s.aggr.flag = s.aggr.agg
  · exact .of_eq (by rw [recompute_trace, if_pos h]) (by simp [h])
  · refine ⟨[.irqChange (wiredOr s.cfg.agg s.aggr.flag)], by rw [recompute_trace, if_neg h], ?_, ?_⟩
    · simp [changesOnly, h]
    · simp [levelAfter]

theorem setSource_tells {i : SrcIdx} {raw : Level} {s t : State} (h : setSource i raw s = .next t) :
    TraceTells s t := by
  obtain ⟨-, rfl⟩ := setSource_eq_next.1 h
  exact (TraceTells.of_eq rfl rfl : TraceTells s (setFlag i _ s)).trans (recompute_tells _)

/-- What `set_source` leaves of the aggregator, and the events it adds (43_interrupt_aggregator.md R202, R203). -/
theorem setSource_parts {i : SrcIdx} {raw : Level} {s t : State} (h : setSource i raw s = .next t) :
    t.cfg = s.cfg ∧ t.aggr.flag = s.aggr.flag.set i (raw ^^ s.cfg.agg.inv[i]) ∧
    t.aggr.agg = wiredOr s.cfg.agg t.aggr.flag ∧
    ∃ es, t.trace = s.trace ++ es ∧
      es = (if t.aggr.agg = s.aggr.agg then [] else [.irqChange t.aggr.agg]) ∧ (∀ e ∈ es, ∃ v, e = .irqChange v) ∧ changesOnly s.aggr.agg es = true ∧
      levelAfter s.aggr.agg es = t.aggr.agg := by
  obtain ⟨es, h1, h2, h3⟩ := setSource_tells h
  obtain ⟨-, rfl⟩ := setSource_eq_next.1 h
  have he : es = if (recompute (setFlag i (logicalFlag s.cfg.agg i raw) s)).aggr.agg = s.aggr.agg then []
      else [.irqChange (recompute (setFlag i (logicalFlag s.cfg.agg i raw) s)).aggr.agg] := by
    rw [recompute_trace] at h1
    simp only [recompute_aggr]
    split at h1
    · next hw => exact Eq.trans (by simpa using h1) (if_pos hw).symm
    · next hw => exact (List.append_cancel_left h1).symm.trans (if_neg hw).symm
  refine ⟨by simp, by simp [logicalFlag], by simp, es, h1, he, ?_, h2, h3⟩
  rw [he]
  split <;> simp

/-- A handler's actions, all of them: the flags, `agg` and the events (41_bit_engine.md R143). -/
theorem runActions_sources {as : List ClientAction} {s t : State} (h : runActions as s = .next t) :
    ∃ es, t.trace = s.trace ++ es ∧ SourcesApplied s t as es := by
  induction as generalizing s with
  | nil => cases h; exact ⟨[], by simp, fun j => rfl, rfl, rfl, by simp, rfl, rfl⟩
  | cons a as ih =>
    cases a with
    | reenter w => cases h
    | setSource i raw =>
      obtain ⟨u, hu, hr⟩ := andThen_eq_next.1 h
      obtain ⟨hc, hf, ha, xs, k1, k0, k2, k3, k4⟩ := setSource_parts hu
      obtain ⟨es, h1, h2⟩ := ih hr
      refine ⟨xs ++ es, by rw [h1, k1, List.append_assoc], fun j => ?_, ?_, ?_, ?_, ?_, ?_⟩
      · rw [h2.flags j]
        simp only [lastRaw]
        cases lastRaw j as with
        | some r => simp [hc]
        | none =>
          by_cases hij : i = j
          · subst hij; simp [hf]
          · have : i.val ≠ j.val := fun h => hij (Fin.ext h)
            simp [hf, hij, this]
      · rw [h2.level, hc]
        split
        · next he => subst he; cases hr; simpa using ha
        · simp
      · rw [k0, h2.exact, hc, ha, hf]; rfl
      · intro e he
        exact (List.mem_append.1 he).elim (k2 e) (h2.events e)
      · rw [changesOnly_append, k3, k4, h2.changes]; rfl
      · rw [levelAfter_append, k4, h2.last]

theorem runActions_append (as bs : List ClientAction) (s : State) :
    runActions (as ++ bs) s = andThen (runActions as s) (runActions bs) := by
  induction as generalizing s with
  | nil => rfl
  | cons a as ih =>
    cases a with
    | reenter w => rfl
    | setSource i raw =>
      simp only [List.cons_append, runActions]
      cases setSource i raw s <;> simp [andThen, ih]

theorem handlers_tell : HandlerStep TraceTells where
  same _ := .of_eq rfl rfl
  trans := .trans
  source := setSource_tells
  kbd _ _ := .of_eq rfl rfl
  client _ _ := .of_eq rfl rfl
  draws _ _ := .of_eq rfl rfl

/-! ## The aggregator's invariant -/

theorem setSource_keeps_aggregatorInv {i : SrcIdx} {raw : Level} {s t : State} (h : setSource i raw s = .next t)
    (hs : AggregatorInv s) : AggregatorInv t := by
  obtain ⟨hi, rfl⟩ := setSource_eq_next.1 h
  refine ⟨by simp, fun j hj => ?_⟩
  simp only [recompute_cfg, setFlag_cfg] at hj
  have hij : i.val ≠ j.val := by
    intro h
    rw [Fin.ext h] at hi
    simp [hi] at hj
  simpa [Vector.getElem_set, hij] using hs.2 j hj

theorem handlers_keep_aggregatorInv : HandlerStep fun s t => AggregatorInv s → AggregatorInv t where
  same _ := id
  trans h k := k ∘ h
  source := setSource_keeps_aggregatorInv
  kbd _ _ := id
  client _ _ := id
  draws _ _ := id

end Sys2Proof.Machine
end

