-- ==== Sys2Proof/Laws/Exec.lean ====
section
/-! SUPPORT. One inversion lemma per operation that can do several things: if it answers next t, one of these cases
holds. -/
namespace Sys2Proof.Machine

/-! ## The bit engine's parts, field by field -/

@[simp] theorem bitAction_cfg (v : Level) (s : State) : (bitAction v s).cfg = s.cfg := by
  unfold bitAction; split <;> simp
@[simp] theorem bitAction_aggr (v : Level) (s : State) : (bitAction v s).aggr = s.aggr := by
  unfold bitAction; split <;> simp
@[simp] theorem bitAction_kbd (v : Level) (s : State) : (bitAction v s).kbd = s.kbd := by
  unfold bitAction; split <;> simp
@[simp] theorem bitAction_trace (v : Level) (s : State) : (bitAction v s).trace = s.trace := by
  unfold bitAction; split <;> simp
@[simp] theorem bitAction_clientState (v : Level) (s : State) : (bitAction v s).clientState = s.clientState := by
  unfold bitAction; split <;> simp
@[simp] theorem bitAction_draws (v : Level) (s : State) : (bitAction v s).draws = s.draws := by
  unfold bitAction; split <;> simp
@[simp] theorem bitAction_pending (v : Level) (s : State) : (bitAction v s).pending = s.pending := by
  unfold bitAction; split <;> simp

/-- SAMPLE and SHIFT write no line but `miso`. -/
theorem bitAction_line (v : Level) (s : State) :
    (bitAction v s).line = { s.line with miso := (bitAction v s).line.miso } := by
  unfold bitAction; split
  · simp
  · simp [shift_line]

@[simp] theorem applyReply_cfg (r : State × Option Byte) : (applyReply r).cfg = r.1.cfg := by
  unfold applyReply; split <;> simp
@[simp] theorem applyReply_aggr (r : State × Option Byte) : (applyReply r).aggr = r.1.aggr := by
  unfold applyReply; split <;> simp
@[simp] theorem applyReply_kbd (r : State × Option Byte) : (applyReply r).kbd = r.1.kbd := by
  unfold applyReply; split <;> simp
@[simp] theorem applyReply_trace (r : State × Option Byte) : (applyReply r).trace = r.1.trace := by
  unfold applyReply; split <;> simp
@[simp] theorem applyReply_clientState (r : State × Option Byte) : (applyReply r).clientState = r.1.clientState := by
  unfold applyReply; split <;> simp
@[simp] theorem applyReply_draws (r : State × Option Byte) : (applyReply r).draws = r.1.draws := by
  unfold applyReply; split <;> simp
@[simp] theorem applyReply_pending (r : State × Option Byte) : (applyReply r).pending = r.1.pending := by
  unfold applyReply; split <;> simp

/-- A reply writes `send_shift` and `miso` only (41_bit_engine.md R144). -/
theorem applyReply_parts (r : State × Option Byte) :
    (applyReply r).line = { r.1.line with miso := (applyReply r).line.miso } ∧
    (applyReply r).xchg = { r.1.xchg with sendShift := (applyReply r).xchg.sendShift } := by
  unfold applyReply; split <;> simp

/-! ## Operations -/

theorem complete_eq_next {s t : State} (h : complete s = .next t) :
    ∃ u r, onByteExchanged s.xchg.recvShift (endByte s) = .next (u, r) ∧ t = applyReply (u, r) := by
  obtain ⟨⟨u, r⟩, hu, he⟩ := andThen_eq_next.1 h
  cases he
  exact ⟨u, r, hu, rfl⟩

/-- All that CLK can answer as a next state (40_line_ops.md R101, 41_bit_engine.md R141). -/
theorem execClk_eq_next {v : Level} {s t : State} (h : execClk v s = .next t) :
    (qualifies v s = false ∧ t = s) ∨
    (qualifies v s = true ∧ byteDone (bitAction v (setClk v s)) = false ∧ t = bitAction v (setClk v s)) ∨
    (qualifies v s = true ∧ byteDone (bitAction v (setClk v s)) = true ∧
      ∃ u r, onByteExchanged (bitAction v (setClk v s)).xchg.recvShift (endByte (bitAction v (setClk v s)))
        = .next (u, r) ∧ t = applyReply (u, r)) := by
  unfold execClk at h
  split at h
  · next hs => cases h; exact .inl ⟨by simp [qualifies, hs], rfl⟩
  · next hs =>
    split at h
    · next hv => cases h; exact .inl ⟨by simp [qualifies, hv], rfl⟩
    · next hv =>
      have hq : qualifies v s = true := by simpa [qualifies, hv] using hs
      simp only [edge] at h
      split at h
      · next hd => exact .inr (.inr ⟨hq, hd, complete_eq_next h⟩)
      · next hd => cases h; exact .inr (.inl ⟨hq, by simpa using hd, rfl⟩)

/-- All that SEL can answer as a next state (40_line_ops.md R100). -/
theorem execSel_eq_next {v : Level} {s t : State} (h : execSel v s = .next t) :
    (v = s.line.sel ∧ t = s) ∨
    (v = true ∧ s.line.sel = false ∧
      onSelect (emit .selected (setSendCount 0 (setRecvCount 0 (setSel true s)))) = .next t) ∨
    (v = false ∧ s.line.sel = true ∧ onDeselect (emit .deselected (setSel false s)) = .next t) := by
  unfold execSel at h
  split at h
  · next hv => cases h; exact .inl ⟨hv, rfl⟩
  · next hv =>
    cases v
    · exact .inr (.inr ⟨rfl, by simpa using hv, by simpa using h⟩)
    · exact .inr (.inl ⟨rfl, by simpa using hv, by simpa using h⟩)

/-- All that KBD can answer as a next state (42_keyboard_client.md R183). -/
theorem execKbd_eq_next {b : Byte} {s t : State} (h : execKbd b s = .next t) :
    s.cfg.spi.client = .keyboard ∧
      setKirq true (setKbd { s.kbd with scancodeBuffer := b, bufferFull := true } s) = .next t := by
  unfold execKbd at h
  split at h
  · next hc => exact ⟨hc, h⟩
  · cases h

theorem execKbd_same {b : Byte} {s t : State} (h : execKbd b s = .next t) : SameBlock s t := by
  have k := setKirq_same (execKbd_eq_next h).2
  constructor <;> simp [k.cfg, k.line, k.xchg, k.pending]

theorem HandlerStep.execKbd {P : State → State → Prop} (hP : HandlerStep P) {b : Byte} {s t : State}
    (h : execKbd b s = .next t) : P s t :=
  hP.trans (hP.kbd s _) (hP.setKirq (execKbd_eq_next h).2)

/-- All that a step can answer as a next state (log 2). -/
theorem step_eq_next {s t : State} (h : step s = .next t) :
    (s.pending = [] ∧ t = s) ∨
    ∃ w ws i, s.pending = w :: ws ∧ decode s.cfg w = .ok i ∧ exec i (setPending ws s) = .next t := by
  unfold step fetch at h
  cases hp : s.pending with
  | nil => simp [hp] at h; exact .inl ⟨rfl, h.symm⟩
  | cons w ws =>
    simp only [hp, setPending_cfg] at h
    cases hd : decode s.cfg w with
    | ok i => exact .inr ⟨w, ws, i, rfl, hd, by simpa [hd] using h⟩
    | error r => simp [hd] at h

end Sys2Proof.Machine
end

