-- ==== Sys2Proof/Laws/PerInstr.lean ====
section
/-! SUPPORT. What is true of every operation as text: its word carries the fixed bits of its own row of the opcode map
(30_encoding.md R65). -/
namespace Sys2Proof.Laws.EncodedRow

/-- The word of i is covered by the row of i's own mnemonic. -/
def Statement (i : Instr) : Prop :=
  ∃ row ∈ opcodeTable, row.mnemonic = i.mnemonic ∧ row.covers (encode i) = true

theorem sel (level : Level) : Statement (.sel level) := by cases level <;> exact ⟨⟨.SEL, 0x1000, 0xFF00⟩, by decide⟩

theorem clk (level : Level) : Statement (.clk level) := by cases level <;> exact ⟨⟨.CLK, 0x2000, 0xFF00⟩, by decide⟩

theorem mosi (level : Level) : Statement (.mosi level) := by
  cases level <;> exact ⟨⟨.MOSI, 0x3000, 0xFF00⟩, by decide⟩

theorem miso : Statement .miso := ⟨⟨.MISO, 0x4000, 0xFFFF⟩, by decide⟩

/-- The bits of a word under the mask of formats L and B are `OP` and `IDX`. -/
theorem masked_high (op idx : BitVec 4) (d : Byte) : wordOf op idx d &&& 0xFF00 = wordOf op idx 0 := by
  rw [show (0xFF00 : Word) = wordOf 0xF 0xF 0 from rfl]
  apply BitVec.eq_of_getLsbD_eq
  intro i hi
  rw [BitVec.getLsbD_and, getLsbD_wordOf, getLsbD_wordOf, getLsbD_wordOf,
    show (0xF : BitVec 4) = BitVec.allOnes 4 from rfl]
  by_cases h8 : i < 8
  · simp [h8]
  · by_cases h12 : i - 8 < 4
    · simp [h8, h12, -BitVec.reduceAllOnes]
    · simp [h8, h12, show i - 8 - 4 < 4 by omega, -BitVec.reduceAllOnes]

theorem arm (b : Byte) : Statement (.arm b) :=
  ⟨⟨.ARM, 0x5000, 0xFF00⟩, by decide, rfl, by simp only [OpcodeRow.covers, encode, masked_high]; rfl⟩

theorem src (i : SrcIdx) (raw : Level) : Statement (.src i raw) :=
  ⟨⟨.SRC, 0x6000, 0xF000⟩, by decide, rfl, by revert i raw; decide⟩

theorem irq : Statement .irq := ⟨⟨.IRQ, 0x7000, 0xFFFF⟩, by decide⟩

theorem kbd (b : Byte) : Statement (.kbd b) :=
  ⟨⟨.KBD, 0x8000, 0xFF00⟩, by decide, rfl, by simp only [OpcodeRow.covers, encode, masked_high]; rfl⟩

theorem rst : Statement .rst := ⟨⟨.RST, 0xF000, 0xFFFF⟩, by decide⟩

end Sys2Proof.Laws.EncodedRow
end

