-- ==== Sys2Proof/Tests/Slice0.lean ====
section
/-! SUPPORT. Tests: refusals of ill-formed terms, decodings of words written out from the spec, single steps against
95_test_vectors.md, and a witness for the hypotheses of each statement. -/
namespace Sys2Proof.Tests
open Sys2Proof Sys2Proof.Machine

/-! ## Small states -/

/-- A configuration with N inputs, all active-high, and `KBD_SRC = 0`. -/
def cfg (mode : BitVec 2) (o : BitOrder) (client : Client) (n : Nat) : Config where
  spi := { mode := mode, bitOrder := o, client := client, kbdSrc := 0 }
  agg := { nSrc := n, srcName := List.replicate n "", inv := Vector.replicate 16 false, outActiveLow := false }

/-- The vectors' configuration: mode 0, MSB_FIRST, null client, 4 inputs (95_test_vectors.md, its conventions). -/
def vecCfg : Config := cfg 0 .msbFirst .null 4

/-- The vectors' keyboard configuration, 2 inputs (95_test_vectors.md, its conventions). -/
def kbdCfg : Config := cfg 0 .msbFirst .keyboard 2

/-- A client that asserts input 3 when selected, echoes a first byte 0x3C or 0xC3, then answers 0x5A for 0xA5, and
re-enters on deselect. -/
def table : ClientScript where
  start := 0
  rows :=
    [⟨0, .onSelect, ⟨[.setSource 3 true], none⟩, 1⟩,
     ⟨1, .onByteExchanged 0x3C, ⟨[], some 0x3C⟩, 2⟩, ⟨1, .onByteExchanged 0xC3, ⟨[], some 0xC3⟩, 2⟩,
     ⟨2, .onByteExchanged 0xA5, ⟨[.setSource 3 false, .setSource 1 true], some 0x5A⟩, 2⟩,
     ⟨2, .onDeselect, ⟨[.setSource 3 false, .reenter .clk, .setSource 3 true], none⟩, 0⟩]

def scriptCfg : Config := cfg 0 .msbFirst (.scripted table) 4

/-- The reset state of c with the lines and the exchange given in the vectors' order. -/
def at8 (c : Config) (sel clk mosi miso : Level) (recv send : Byte) (rc sc : Nat) : State :=
  { State.ofConfig c with
    line := { sel := sel, clk := clk, mosi := mosi, miso := miso }
    xchg := { recvShift := recv, sendShift := send, recvCount := rc, sendCount := sc } }

/-- The table's client in own state q, at the last edge of byte rx. -/
def tableAt (q : Nat) (rx : Byte) : State :=
  { at8 scriptCfg true true true false rx 0x00 8 7 with clientState := q }

/-- What an outcome leaves, seen through a view. -/
def seen {α : Type} (f : State → α) : Host.Outcome State Fault Refusal → Option α
  | .next s => some (f s)
  | .fault _ => none
  | .refused _ => none

def lx (s : State) : LineState × ExchangeState := (s.line, s.xchg)

/-- One aggregator input set, the rest as at reset. -/
def oneFlag (i : SrcIdx) : AggregatorState := { flag := (Vector.replicate 16 false).set i true, agg := true }

/-! ## Ill-formed terms are refused (00_scope.md R8, 30_encoding.md R66) -/

theorem test_valid_reset : Config.atReset.valid = true ∧ vecCfg.valid = true ∧ kbdCfg.valid = true := by decide

theorem test_invalid_no_inputs : (cfg 0 .msbFirst .null 0).valid = false := by decide

theorem test_invalid_too_many_inputs : (cfg 0 .msbFirst .null 17).valid = false := by decide

theorem test_invalid_name_count :
    Config.valid { vecCfg with agg := { vecCfg.agg with srcName := ["a"] } } = false := by decide

theorem test_invalid_polarity_of_no_input :
    Config.valid { vecCfg with agg := { vecCfg.agg with inv := (Vector.replicate 16 false).set 4 true } } = false := by
  decide

theorem test_invalid_keyboard_input :
    Config.valid { vecCfg with spi := { vecCfg.spi with kbdSrc := 4 } } = false := by decide

theorem test_wf_src : Instr.wf vecCfg (.src 4 true) = false ∧ Instr.wf vecCfg (.src 3 true) = true := by decide

theorem test_wf_kbd : Instr.wf vecCfg (.kbd 0x12) = false ∧ Instr.wf kbdCfg (.kbd 0x12) = true := by decide

/-! ## Words written out from the encoding (30_encoding.md §1, §3; 95_test_vectors.md §2.7) -/

theorem test_decode_sel :
    decode vecCfg 0b0001_0000_00000001 = .ok (.sel true) ∧ decode vecCfg 0b0001_0000_11111111 = .ok (.sel true) ∧
    decode vecCfg 0b0001_0000_00000000 = .ok (.sel false) ∧
    decode vecCfg 0b0001_0001_00000000 = .error .reservedField := ⟨rfl, rfl, rfl, rfl⟩

theorem test_decode_clk :
    decode vecCfg 0b0010_0000_00000000 = .ok (.clk false) ∧ decode vecCfg 0b0010_0000_11111111 = .ok (.clk true) :=
  ⟨rfl, rfl⟩

theorem test_decode_mosi :
    decode vecCfg 0b0011_0000_00000001 = .ok (.mosi true) ∧ decode vecCfg 0b0011_0000_00000010 = .ok (.mosi true) :=
  ⟨rfl, rfl⟩

theorem test_decode_miso :
    decode vecCfg 0b0100_0000_00000000 = .ok .miso ∧ decode vecCfg 0b0100_0000_00000001 = .error .reservedField ∧
    decode vecCfg 0b0100_0001_00000000 = .error .reservedField := ⟨rfl, rfl, rfl⟩

theorem test_decode_arm :
    decode vecCfg 0b0101_0000_00111100 = .ok (.arm 0x3C) ∧
    decode vecCfg 0b0101_1010_00000000 = .error .reservedField := ⟨rfl, rfl⟩

theorem test_decode_src :
    decode vecCfg 0b0110_0011_00000001 = .ok (.src 3 true) ∧
    decode (cfg 0 .msbFirst .null 2) 0b0110_0011_00000001 = .error .noSuchSource ∧
    decode vecCfg 0b0110_0100_00000001 = .error .noSuchSource ∧
    decode Config.atReset 0b0110_1111_00000000 = .ok (.src 15 false) := ⟨rfl, rfl, rfl, rfl⟩

theorem test_decode_irq :
    decode vecCfg 0b0111_0000_00000000 = .ok .irq ∧ decode vecCfg 0b0111_0000_00000001 = .error .reservedField :=
  ⟨rfl, rfl⟩

theorem test_decode_kbd :
    decode kbdCfg 0b1000_0000_00010010 = .ok (.kbd 0x12) ∧
    decode vecCfg 0b1000_0000_00010010 = .error .noKeyboardClient := ⟨rfl, rfl⟩

theorem test_decode_rst :
    decode vecCfg 0b1111_0000_00000000 = .ok .rst ∧ decode vecCfg 0b1111_0000_00000001 = .error .reservedField ∧
    decode vecCfg 0b1111_0001_00000000 = .error .reservedField := ⟨rfl, rfl, rfl⟩

theorem test_decode_reserved :
    decode vecCfg 0x0000 = .error .reservedOpcode ∧ decode vecCfg 0x9000 = .error .reservedOpcode ∧
    decode vecCfg 0xE123 = .error .reservedOpcode := ⟨rfl, rfl, rfl⟩

theorem test_decode_stream :
    decodeBytes vecCfg [0x50, 0x3C, 0x40] = .ok (.arm 0x3C, [0x40]) ∧ decodeBytes vecCfg [0x40] = .error .truncated :=
  ⟨rfl, rfl⟩

theorem test_disassemble :
    disassemble vecCfg 0x6201 = "SRC 2, 1".toList ∧ disassemble vecCfg 0x503C = "ARM 0x3C".toList ∧
    disassemble vecCfg 0x2000 = "CLK 0".toList ∧
    disassemble vecCfg 0x0000 = ".word 0x0000 ; refused: reserved-opcode".toList := by decide

/-! ## Bit helpers and edges (95_test_vectors.md §2.1) -/

theorem test_bit_helpers :
    head .msbFirst 0x01 = false ∧ head .lsbFirst 0x01 = true ∧ head .msbFirst 0x80 = true ∧ head .lsbFirst 0x80 = false ∧
    adv .msbFirst 0x3C = 0x78 ∧ adv .lsbFirst 0x3C = 0x1E ∧ adv .msbFirst 0x81 = 0x02 ∧ adv .lsbFirst 0x81 = 0x40 ∧
    shin .msbFirst 0x00 true = 0x01 ∧ shin .lsbFirst 0x00 true = 0x80 ∧ shin .msbFirst 0xFF false = 0xFE ∧
    shin .lsbFirst 0xFF false = 0x7F ∧ shin .msbFirst 0xA5 true = 0x4B ∧ shin .lsbFirst 0xA5 true = 0xD2 ∧
    out .msbFirst 0x01 7 = true ∧ out .lsbFirst 0x01 7 = false ∧ out .msbFirst 0x80 0 = true ∧
    out .lsbFirst 0x80 0 = false := by decide

theorem test_edge_roles :
    isLeading (cfg 1 .msbFirst .null 4).spi true = true ∧ isSampleEdge (cfg 1 .msbFirst .null 4).spi true = false ∧
    isLeading (cfg 2 .msbFirst .null 4).spi true = false ∧ isSampleEdge (cfg 2 .msbFirst .null 4).spi true = false ∧
    isLeading (cfg 3 .msbFirst .null 4).spi true = false ∧ isSampleEdge (cfg 3 .msbFirst .null 4).spi true = true := by
  decide

/-! ## Single steps (95_test_vectors.md) -/

/-- V-L3 (SEL 0x80 from reset) and V-H10 (reselect resets the counts and nothing else). -/
theorem test_sel_rising :
    seen (fun s => (lx s, s.trace)) (exec (.sel true) (State.ofConfig vecCfg)) =
      some (lx (at8 vecCfg true false false false 0x00 0x00 0 0), [.selected]) ∧
    seen lx (exec (.sel true) (at8 (cfg 3 .lsbFirst .null 4) false true true false 0xC0 0x0F 2 2)) =
      some (lx (at8 vecCfg true true true false 0xC0 0x0F 0 0)) := by decide

/-- V-H2: the falling edge keeps the counts; V-L2: SEL at the same level does nothing. -/
theorem test_sel_falling :
    seen (fun s => (lx s, s.trace)) (exec (.sel false) (at8 vecCfg true false true true 0x05 0xE0 3 3)) =
      some (lx (at8 vecCfg false false true true 0x05 0xE0 3 3), [.deselected]) ∧
    seen (fun s => (lx s, s.trace)) (exec (.sel true) (at8 vecCfg true true true false 0x01 0x00 1 0)) =
      some (lx (at8 vecCfg true true true false 0x01 0x00 1 0), []) := by decide

/-- V-E2 rows 5 and 10, V-E3 row 12 (`CPHA = 1` drives the old head), V-L5 (a repeated CLK), and a CLK while
deselected. -/
theorem test_clk_edges :
    seen lx (exec (.clk true) (at8 vecCfg true false true false 0x00 0x3C 0 0)) =
      some (lx (at8 vecCfg true true true false 0x01 0x3C 1 0)) ∧
    seen lx (exec (.clk false) (at8 vecCfg true true false false 0x02 0x78 2 1)) =
      some (lx (at8 vecCfg true false false true 0x02 0xF0 2 2)) ∧
    seen lx (exec (.clk true) (at8 (cfg 1 .msbFirst .null 4) true false true false 0x02 0xF0 2 2)) =
      some (lx (at8 vecCfg true true true true 0x02 0xE0 2 3)) ∧
    seen lx (exec (.clk true) (at8 vecCfg true true true false 0x01 0x00 1 0)) =
      some (lx (at8 vecCfg true true true false 0x01 0x00 1 0)) ∧
    seen lx (exec (.clk true) (at8 vecCfg false false true false 0x01 0x00 1 0)) =
      some (lx (at8 vecCfg false false true false 0x01 0x00 1 0)) := by decide

/-- V-E2 row 34, V-H7's last edge, V-H4's misaligned end, and the first COMPLETE of V-K1. -/
theorem test_clk_ends_byte :
    seen (fun s => (lx s, s.trace)) (exec (.clk false) (at8 vecCfg true true true false 0xA5 0x00 8 7)) =
      some (lx (at8 vecCfg true false true false 0xA5 0x00 0 0), [.byteExchanged 0xA5]) ∧
    seen (fun s => (lx s, s.trace)) (exec (.clk false)
        (at8 (cfg 1 .msbFirst .null 4) true true false true 0x00 0x00 7 8)) =
      some (lx (at8 vecCfg true false false false 0x00 0x00 0 0), [.byteExchanged 0x00]) ∧
    seen (fun s => (lx s, s.trace)) (exec (.clk true) (at8 vecCfg true false true false 0xA5 0x00 7 8)) =
      some (lx (at8 vecCfg true true true false 0x4B 0x00 0 0), [.byteExchanged 0x4B]) ∧
    seen (fun s => (s.xchg.sendShift, s.kbd, s.aggr, s.trace)) (exec (.clk false)
        { at8 kbdCfg true true false false 0x00 0x00 8 7 with
          kbd := ⟨.newlySelected, 0x1C, true, true⟩, aggr := oneFlag 0 }) =
      some (0x1C, ⟨.readyToRead, 0x00, false, false⟩, (State.ofConfig kbdCfg).aggr,
        [.byteExchanged 0x00, .irqChange false]) := by decide

/-- A client's table (41_bit_engine.md R143): SEL runs its handler, a byte is echoed by value, and RST takes it back to its
start. -/
theorem test_client_table :
    seen (fun s => (s.clientState, s.aggr, s.trace)) (exec (.sel true) (State.ofConfig scriptCfg)) =
      some (1, oneFlag 3, [.selected, .irqChange true]) ∧
    seen (fun s => (s.clientState, s.xchg.sendShift)) (exec (.clk false) (tableAt 1 0x3C)) = some (2, 0x3C) ∧
    seen (fun s => (s.clientState, s.xchg.sendShift)) (exec (.clk false) (tableAt 1 0xC3)) = some (2, 0xC3) ∧
    seen (fun s => s.clientState) (exec .rst (tableAt 2 0x00)) = some 0 := by decide

/-- V-L8 and V-L1. -/
theorem test_mosi :
    seen lx (exec (.mosi true) (at8 vecCfg true false false false 0x00 0x00 0 0)) =
      some (lx (at8 vecCfg true false true false 0x00 0x00 0 0)) ∧
    seen lx (exec (.mosi true) (State.ofConfig vecCfg)) = some (lx (State.ofConfig vecCfg)) := by decide

/-- V-L7, and V-H7's `MisoRead(1)`. -/
theorem test_miso :
    seen (fun s => s.trace) (exec .miso (at8 vecCfg false false false false 0x00 0x01 0 0)) = some [.misoRead false] ∧
    seen (fun s => s.trace) (exec .miso (at8 vecCfg true true false true 0x00 0x00 7 8)) = some [.misoRead true] := by
  decide

/-- V-L6, both bit orders. -/
theorem test_arm :
    seen lx (exec (.arm 0x01) (State.ofConfig vecCfg)) = some (lx (at8 vecCfg false false false false 0x00 0x01 0 0)) ∧
    seen lx (exec (.arm 0x01) (State.ofConfig (cfg 0 .lsbFirst .null 4))) =
      some (lx (at8 vecCfg false false false true 0x00 0x01 0 0)) := by decide

/-- V-A2: the second source and the first release are silent. -/
theorem test_src_two_sources :
    seen (fun s => (s.aggr.agg, s.trace)) (exec (.src 3 true) { State.ofConfig vecCfg with aggr := oneFlag 0 }) =
      some (true, []) ∧
    seen (fun s => (s.aggr, s.trace)) (exec (.src 3 false) { State.ofConfig vecCfg with aggr := oneFlag 3 }) =
      some ((State.ofConfig vecCfg).aggr, [.irqChange false]) := by decide

/-- V-A4: an active-low input presented low is asserted. -/
theorem test_src_polarity :
    seen (fun s => (s.aggr, s.trace)) (exec (.src 1 false) (State.ofConfig
        { vecCfg with agg := { vecCfg.agg with inv := (Vector.replicate 16 false).set 1 true } })) =
      some (oneFlag 1, [.irqChange true]) := by decide

/-- V-A6 and V-A7: the read is the logical level; the pin has its own polarity. -/
theorem test_irq :
    seen (fun s => s.trace) (exec .irq { State.ofConfig vecCfg with aggr := oneFlag 1 }) = some [.irqRead true] ∧
    outputPin vecCfg.agg true = true ∧ outputPin { vecCfg.agg with outActiveLow := true } true = false := by decide

/-- V-K1's push. -/
theorem test_kbd :
    seen (fun s => (s.kbd, s.aggr, s.trace)) (exec (.kbd 0x1C) (State.ofConfig kbdCfg)) =
      some (⟨.notSelected, 0x1C, true, true⟩, oneFlag 0, [.irqChange true]) := by decide

/-- V-K7's second push (one `IrqChange` only), behind the inverting input of V-K11. -/
theorem test_kbd_overwrite :
    seen (fun s => (s.kbd, s.aggr, s.trace)) (exec (.kbd 0x22)
        { State.ofConfig { kbdCfg with agg := { kbdCfg.agg with inv := (Vector.replicate 16 false).set 0 true } } with
          kbd := ⟨.notSelected, 0x11, true, true⟩, aggr := oneFlag 0 }) =
      some (⟨.notSelected, 0x22, true, true⟩, oneFlag 0, []) := by decide

/-- V-R1 (mode 2) and V-R2. -/
theorem test_rst :
    seen (fun s => (lx s, s.trace)) (exec .rst (at8 (cfg 2 .msbFirst .null 4) true true true false 0x01 0x78 1 1)) =
      some (lx (at8 vecCfg false true false false 0x00 0x00 0 0), []) ∧
    seen (fun s => (s.kbd, s.aggr.agg, s.trace)) (exec .rst { State.ofConfig kbdCfg with
        kbd := ⟨.notSelected, 0x1C, true, true⟩, aggr := oneFlag 0, trace := [.irqChange true] }) =
      some (⟨.notSelected, 0x00, false, false⟩, false, [.irqChange true]) := by decide

/-- The word placed for the host's probe is the one the next step runs. -/
theorem test_fetch_word :
    step (State.reset.withFetchWord 16 0x503C) = exec (.arm 0x3C) State.reset ∧
    decodeTableWord 16 0x503C = some (.arm 0x3C) := ⟨rfl, rfl⟩

/-! ## Witnesses: states and operands that meet the hypotheses of each statement, clause by clause -/

theorem witness_DecodeEncodeRoundTrip :
    Instr.wf Config.atReset (.src 15 true) = true ∧ Instr.wf vecCfg (.src 0 false) = true ∧
    Instr.wf kbdCfg (.kbd 0xFF) = true := by decide

theorem witness_DecodedWordReencodes :
    decode vecCfg 0x10FF = .ok (.sel true) ∧ encode (.sel true) = canonicalLevel 0x10FF ∧ canonicalLevel 0x503C = 0x503C :=
  ⟨rfl, rfl, rfl⟩

theorem witness_OpcodeRowsNeverOverlap :
    ⟨.SRC, 0x6000, 0xF000⟩ ∈ opcodeTable ∧ OpcodeRow.covers ⟨.SRC, 0x6000, 0xF000⟩ 0x6FFF = true ∧
    OpcodeRow.covers ⟨.MISO, 0x4000, 0xFFFF⟩ 0x4000 = true := by decide

theorem witness_CoveredWordDecodesToItsRow :
    decode vecCfg 0x63FF = .ok (.src 3 true) ∧ decode vecCfg 0x64FF = .error .noSuchSource ∧
    decode kbdCfg 0x8000 = .ok (.kbd 0) ∧ decode vecCfg 0x8000 = .error .noKeyboardClient := ⟨rfl, rfl, rfl, rfl⟩

theorem witness_RefusedWordReasons :
    decode vecCfg 0x0FFF = .error .reservedOpcode ∧ decode vecCfg 0xEFFF = .error .reservedOpcode ∧
    decode vecCfg 0x8112 = .error .reservedField ∧ decode vecCfg 0x40FF = .error .reservedField ∧
    decode vecCfg 0x6400 = .error .noSuchSource ∧ decode vecCfg 0x80FF = .error .noKeyboardClient :=
  ⟨rfl, rfl, rfl, rfl, rfl, rfl⟩

theorem witness_LevelOperandsAreCoerced :
    (15 : SrcIdx).val < Config.atReset.agg.nSrc ∧ levelOperand 0x00 = false ∧ levelOperand 0x80 = true := by decide

theorem witness_CfgWordLayout :
    vecCfg.spi.withCfgWord 0x07 ≠ none ∧ vecCfg.spi.withCfgWord 0x08 = none ∧
    (cfg 3 .lsbFirst .null 4).spi.cfgWord = 0x07 := by decide

theorem witness_StepRunsDecodedWord :
    (loadProgram [0x1001, 0x503C] State.reset).pending = [0x1001, 0x503C] ∧
    decode State.reset.cfg 0x1001 = .ok (.sel true) := ⟨rfl, rfl⟩

theorem witness_StepRefusesOrIdles :
    (loadProgram [0x9000] State.reset).pending = [0x9000] ∧ decode State.reset.cfg 0x9000 = .error .reservedOpcode ∧
    State.reset.pending = [] := ⟨rfl, rfl, rfl⟩

theorem witness_ConfigurationNeverChanges : ∃ t, exec (.kbd 0x1C) (State.ofConfig kbdCfg) = .next t := ⟨_, rfl⟩

theorem witness_EveryOperationCompletes :
    Instr.wf kbdCfg (.kbd 0x1C) = true ∧ clientReady (.kbd 0x1C) (State.ofConfig kbdCfg) = true ∧
    Instr.wf vecCfg (.src 3 true) = true ∧ clientReady (.src 3 true) (State.ofConfig vecCfg) = true ∧
    clientReady (.sel true) (State.ofConfig scriptCfg) = true ∧ clientReady (.clk false) (tableAt 2 0xA5) = true ∧
    clientReady (.sel false) (tableAt 2 0xA5) = false := by decide

theorem witness_EveryOperationCompletes_noFault : ∀ p, vecCfg.spi.client ≠ .scripted p := fun _ h => by cases h

theorem witness_AbsentOperationsAreRefused :
    vecCfg.agg.nSrc ≤ (4 : SrcIdx).val ∧ vecCfg.spi.client ≠ .keyboard := by decide

theorem witness_SelWritesSelectLine :
    (false : Level) = (State.ofConfig vecCfg).line.sel ∧ (true : Level) ≠ (State.ofConfig vecCfg).line.sel ∧
    (false : Level) ≠ (at8 kbdCfg true false false false 0 0 3 3).line.sel ∧ vecCfg.spi.client = .null ∧
    kbdCfg.spi.client = .keyboard := by decide

theorem witness_ScriptedHandlerRunsAtSelect :
    scriptCfg.spi.client = .scripted table ∧ (true : Level) ≠ (State.ofConfig scriptCfg).line.sel ∧
    scriptAnswer table (State.ofConfig scriptCfg).clientState .onSelect = (⟨[.setSource 3 true], none⟩, 1) ∧
    [ClientAction.setSource 3 true].all (ClientAction.allowed scriptCfg.agg) = true ∧
    (false : Level) ≠ (tableAt 7 0x00).line.sel ∧ scriptAnswer table 7 .onDeselect = (⟨[], none⟩, 7) := by decide

/-- A handler that raises and drops `agg` says both changes (60_exceptions.md R235). -/
theorem test_two_changes_in_one_operation :
    seen (fun s => s.trace) (exec (.sel true) (State.ofConfig (cfg 0 .msbFirst (.scripted
        ⟨0, [⟨0, .onSelect, ⟨[.setSource 3 true, .setSource 3 false], none⟩, 0⟩]⟩) 4))) =
      some [.selected, .irqChange true, .irqChange false] := by decide

theorem witness_ScriptedHandlerRunsAtByteEnd :
    scriptCfg.spi.client = .scripted table ∧ endsByte false (tableAt 2 0xA5) = true ∧
    scriptAnswer table 2 (.onByteExchanged (receivedByte false (tableAt 2 0xA5))) =
      (⟨[.setSource 3 false, .setSource 1 true], some 0x5A⟩, 2) ∧
    [ClientAction.setSource 3 false, .setSource 1 true].all (ClientAction.allowed scriptCfg.agg) = true ∧
    lastRaw 1 [.setSource 3 false, .setSource 1 true] = some true := by decide

/-- A forbidden call after an allowed one, at SEL. -/
theorem witness_ReentrantHandlerFaults :
    scriptCfg.spi.client = .scripted table ∧ handlerCalled (.sel false) (tableAt 2 0x00) = some .onDeselect ∧
    (scriptAnswer table 2 .onDeselect).1.actions = [.setSource 3 false] ++ .reenter .clk :: [.setSource 3 true] ∧
    [ClientAction.setSource 3 false].all (ClientAction.allowed scriptCfg.agg) = true := by decide

/-- At CLK, a client that first names an input it has and then one it has not, or re-enters. -/
def badTable (a : ClientAction) : ClientScript :=
  ⟨0, [⟨0, .onByteExchanged 0xA5, ⟨[.setSource 3 true, a], none⟩, 0⟩]⟩

def badState (a : ClientAction) : State :=
  at8 (cfg 0 .msbFirst (.scripted (badTable a)) 4) true true true false 0xA5 0x00 8 7

theorem witness_ReentrantHandlerFaults_clk :
    handlerCalled (.clk false) (badState (.reenter .handler)) = some (.onByteExchanged 0xA5) ∧
    (scriptAnswer (badTable (.reenter .handler)) 0 (.onByteExchanged 0xA5)).1.actions =
      [.setSource 3 true] ++ .reenter .handler :: [] ∧
    handlerCalled (.clk false) (badState (.setSource 4 true)) = some (.onByteExchanged 0xA5) ∧
    (scriptAnswer (badTable (.setSource 4 true)) 0 (.onByteExchanged 0xA5)).1.actions =
      [.setSource 3 true] ++ .setSource 4 true :: [] ∧
    scriptCfg.agg.nSrc ≤ (4 : SrcIdx).val := by decide

theorem witness_FaultsOnlyByReentry : exec (.sel false) (tableAt 2 0x00) = .fault .reentrantLineOperation := rfl

theorem witness_OwnStateChangesInHandlersOnly :
    ∃ t, exec (.sel true) (State.ofConfig scriptCfg) = .next t ∧ t.clientState ≠ (State.ofConfig scriptCfg).clientState :=
  ⟨_, rfl, by decide⟩

theorem witness_ClkWithoutEdgeChangesNothing :
    qualifies true (at8 vecCfg true true true false 0x01 0x00 1 0) = false ∧
    qualifies true (State.ofConfig vecCfg) = false := by decide

theorem witness_ClkSampleEdge :
    qualifies true (at8 vecCfg true false true false 0x00 0x3C 0 0) = true ∧ sampleRole vecCfg.spi true = true ∧
    endsByte true (at8 vecCfg true false true false 0x00 0x3C 0 0) = false ∧
    endsByte true (at8 vecCfg true false true false 0x52 0x00 7 7) = false ∧
    qualifies true (at8 vecCfg true false true false 0x52 0x00 7 8) = true ∧
    endsByte true (at8 vecCfg true false true false 0x52 0x00 7 8) = true := by decide

theorem witness_ClkShiftEdgePhaseZero :
    qualifies false (at8 vecCfg true true true false 0x01 0x3C 1 0) = true ∧ sampleRole vecCfg.spi false = false ∧
    vecCfg.spi.mode.getLsbD 0 = false ∧ endsByte false (at8 vecCfg true true true false 0x01 0x3C 1 0) = false ∧
    endsByte false (at8 vecCfg true true true false 0x00 0x3C 7 7) = false ∧
    qualifies false (at8 vecCfg true true true false 0x00 0x3C 8 7) = true ∧
    endsByte false (at8 vecCfg true true true false 0x00 0x3C 8 7) = true := by decide

theorem witness_ClkShiftEdgePhaseOne :
    qualifies true (at8 (cfg 1 .msbFirst .null 4) true false true false 0x00 0x3C 0 0) = true ∧
    sampleRole (cfg 1 .msbFirst .null 4).spi true = false ∧ (cfg 1 .msbFirst .null 4).spi.mode.getLsbD 0 = true ∧
    endsByte true (at8 (cfg 1 .msbFirst .null 4) true false true false 0x00 0x3C 0 0) = false ∧
    endsByte true (at8 (cfg 1 .msbFirst .null 4) true false true false 0x00 0x3C 7 7) = false ∧
    endsByte true (at8 (cfg 1 .msbFirst .null 4) true false true false 0x00 0x3C 8 7) = true := by decide

/-- A byte that ends on a shift edge, on a sample edge, and (misaligned) on a leading edge. -/
theorem witness_ClkEndsByte :
    endsByte false (at8 vecCfg true true true false 0xA5 0x00 8 7) = true ∧
    endsByte false (at8 (cfg 1 .msbFirst .null 4) true true false true 0x00 0x00 7 8) = true ∧
    endsByte true (at8 vecCfg true false true false 0xA5 0x00 7 8) = true ∧ vecCfg.spi.client = .null := by decide

theorem witness_ClkEndsByte_replies :
    (∃ u, onByteExchanged 0xA5 (State.ofConfig vecCfg) = .next (u, none)) ∧
    (∃ u, onByteExchanged 0xA5 { State.ofConfig scriptCfg with clientState := 2 } = .next (u, some 0x5A)) ∧
    ∃ u, onByteExchanged 0xA5 (State.ofConfig kbdCfg) = .next (u, some 0x00) := ⟨⟨_, rfl⟩, ⟨_, rfl⟩, ⟨_, rfl⟩⟩

theorem witness_BitHelpersCarryEveryBit :
    (List.replicate 8 true).length = 8 ∧ outBits .lsbFirst (shinAll .lsbFirst 0x5A (List.replicate 8 true)) =
      List.replicate 8 true := by decide

theorem witness_WholeByteExchange :
    let s := at8 (cfg 3 .lsbFirst .null 4) true true false false 0xFF 0x3C 0 0
    s.line.sel = true ∧ s.line.clk = idle s.cfg.spi ∧ s.line.miso = head s.cfg.spi.bitOrder 0x3C ∧
    s.xchg.sendShift = 0x3C ∧ s.xchg.recvCount = 0 ∧ s.xchg.sendCount = 0 ∧ s.cfg.spi.client = .null := by decide

/-- The keyboard client with a scancode pending, at the end of its command byte. -/
def commandState (rx : Byte) : State :=
  { at8 kbdCfg true true false false rx 0x00 8 7 with
    kbd := ⟨.newlySelected, 0x1C, true, true⟩, aggr := oneFlag 0 }

theorem witness_KeyboardReadCommand :
    kbdCfg.spi.client = .keyboard ∧ kbdCfg.spi.kbdSrc.val < kbdCfg.agg.nSrc ∧
    endsByte false (commandState 0x7F) = true ∧ (commandState 0x7F).kbd.kstate = .newlySelected ∧
    (receivedByte false (commandState 0x7F)).toNat < 0x80 := by decide

/-- The same with an empty buffer. -/
theorem witness_KeyboardReadCommand_empty :
    KeyboardInv { commandState 0x00 with kbd := ⟨.newlySelected, 0x00, false, false⟩ } ∧
    endsByte false { commandState 0x00 with kbd := ⟨.newlySelected, 0x00, false, false⟩ } = true :=
  ⟨by simp only [KeyboardInv]; decide, by decide⟩

theorem witness_KeyboardControlReset :
    kbdCfg.spi.client = .keyboard ∧ kbdCfg.spi.kbdSrc.val < kbdCfg.agg.nSrc ∧
    endsByte false (commandState 0x80) = true ∧ (commandState 0x80).kbd.kstate = .newlySelected ∧
    receivedByte false (commandState 0x80) = 0x80 := by decide

theorem witness_KeyboardPeek :
    kbdCfg.spi.client = .keyboard ∧ endsByte false (commandState 0x81) = true ∧
    (commandState 0x81).kbd.kstate = .newlySelected ∧ receivedByte false (commandState 0x81) = 0x81 := by decide

theorem witness_KeyboardUnknownControlCode :
    kbdCfg.spi.client = .keyboard ∧ endsByte false (commandState 0x82) = true ∧
    (commandState 0x82).kbd.kstate = .newlySelected ∧ 0x82 ≤ (receivedByte false (commandState 0x82)).toNat ∧
    0x82 ≤ (receivedByte false (commandState 0xFF)).toNat := by decide

theorem witness_KeyboardAfterCommandByte :
    kbdCfg.spi.client = .keyboard ∧
    endsByte false { commandState 0x00 with kbd := ⟨.readyToRead, 0x00, false, false⟩ } = true ∧
    endsByte false { commandState 0x00 with kbd := ⟨.done, 0x33, true, true⟩ } = true := by decide

theorem witness_KbdPushesScancode :
    kbdCfg.spi.client = .keyboard ∧ kbdCfg.spi.kbdSrc.val < kbdCfg.agg.nSrc ∧ vecCfg.spi.client ≠ .keyboard := by decide

theorem witness_SrcSetsFlagAndAggregate :
    (3 : SrcIdx).val < vecCfg.agg.nSrc ∧ vecCfg.agg.nSrc ≤ (4 : SrcIdx).val := by decide

theorem witness_IrqChangeTracksAggregate :
    (Instr.src 3 true ≠ .rst ∧ ∃ t, exec (.src 3 true) (State.ofConfig vecCfg) = .next t) ∧
    ∃ t, exec .rst { State.ofConfig vecCfg with aggr := oneFlag 3 } = .next t := ⟨⟨by decide, _, rfl⟩, _, rfl⟩

/-- Its two further clauses: an operation that runs no table client's handler, and one that does. -/
theorem witness_IrqChangeTracksAggregate_handlers :
    (∀ p call, vecCfg.spi.client = .scripted p → handlerCalled (.src 3 true) (State.ofConfig vecCfg) ≠ some call) ∧
    scriptCfg.spi.client = .scripted table ∧
    handlerCalled (.sel true) (State.ofConfig scriptCfg) = some .onSelect ∧
    ∃ t, exec (.sel true) (State.ofConfig scriptCfg) = .next t :=
  ⟨(fun _ _ h => nomatch h), rfl, rfl, _, rfl⟩

theorem reset_aggregatorInv : AggregatorInv (State.ofConfig vecCfg) := by
  simp only [AggregatorInv]; decide

theorem oneFlag_aggregatorInv : AggregatorInv { State.ofConfig vecCfg with aggr := oneFlag 3 } := by
  simp only [AggregatorInv]; decide

/-- The clause about a flag set to the value it holds. -/
theorem witness_SrcSetsFlagAndAggregate_same :
    AggregatorInv { State.ofConfig vecCfg with aggr := oneFlag 3 } ∧
    (oneFlag 3).flag[(3 : SrcIdx)] = (true ^^ vecCfg.agg.inv[(3 : SrcIdx)]) := ⟨oneFlag_aggregatorInv, by decide⟩

theorem witness_AggregateFallsOnlyWhenAllInputsDeassert :
    AggregatorInv { State.ofConfig vecCfg with aggr := oneFlag 3 } ∧
    ∃ t, exec (.src 3 false) { State.ofConfig vecCfg with aggr := oneFlag 3 } = .next t ∧ (oneFlag 3).agg = true ∧
      t.aggr.agg = false ∧ (oneFlag 3).flag[(3 : SrcIdx)] = true ∧ t.aggr.flag[(3 : SrcIdx)] = false :=
  ⟨oneFlag_aggregatorInv, _, rfl, rfl, rfl, rfl, rfl⟩

theorem witness_AggregatorLaws :
    (∃ t, exec (.src 1 true) (State.ofConfig vecCfg) = .next t ∧ t.aggr.flag[(1 : SrcIdx)] = true) ∧
    (∃ t, exec (.src 3 false) { State.ofConfig vecCfg with aggr := oneFlag 3 } = .next t ∧
      t.aggr.flag = Vector.replicate 16 false) ∧
    ∃ t, exec (.src 1 false) { State.ofConfig vecCfg with aggr := oneFlag 3 } = .next t ∧ (3 : SrcIdx) ≠ 1 ∧
      (3 : SrcIdx).val < vecCfg.agg.nSrc ∧ (oneFlag 3).flag[(3 : SrcIdx)] = true ∧ (oneFlag 3).agg = true :=
  ⟨⟨_, rfl, rfl⟩, ⟨_, rfl, rfl⟩, _, rfl, by decide, by decide, rfl, rfl⟩

theorem witness_IrqFlagsView :
    AggregatorInv { State.ofConfig vecCfg with aggr := oneFlag 3 } ∧ irqFlags vecCfg.agg (oneFlag 3).flag = 0x0008 :=
  ⟨oneFlag_aggregatorInv, by decide⟩

theorem witness_OnlyTheListedOperationsWrite :
    ∃ t, exec (.clk true) (at8 vecCfg true false true false 0x00 0x3C 0 0) = .next t ∧ t.line.clk ≠ false ∧
      t.xchg.recvShift ≠ 0x00 ∧ t.xchg.recvCount ≠ 0 := ⟨_, rfl, by decide, by decide, by decide⟩

theorem witness_SelectDoesNotMatterToTheOthers :
    (∀ w, Instr.rst ≠ .sel w ∧ Instr.rst ≠ .clk w ∧ Instr.rst ≠ .mosi w) ∧
    ∃ t, exec .rst (State.ofConfig kbdCfg) = .next t := ⟨by decide, _, rfl⟩

theorem witness_NamesAndOutputPolarityHaveNoEffect : ∃ t, exec (.src 3 true) (State.ofConfig vecCfg) = .next t :=
  ⟨_, rfl⟩

/-- The end of a byte on the next step: an invariant-meeting state that a step leaves. -/
def beforeLastEdge : State :=
  { at8 kbdCfg true true false false 0x00 0x00 8 7 with
    kbd := ⟨.newlySelected, 0x1C, true, true⟩, aggr := oneFlag 0, pending := [0x2000] }

theorem witness_Inv : Inv beforeLastEdge where
  counts := by simp only [CountsInv]; decide
  aggregator := by simp only [AggregatorInv]; decide
  keyboard := by simp only [KeyboardInv]; decide
  miso := by simp only [MisoInv]; decide

theorem witness_CountersStayInStep :
    CountsInv beforeLastEdge ∧ qualifies false beforeLastEdge = true ∧ sampleRole kbdCfg.spi false = false ∧
    ∃ t, step beforeLastEdge = .next t := ⟨witness_Inv.counts, by decide, by decide, _, rfl⟩

/-- The other sign of the difference, with the sample edge next. -/
theorem witness_CountersStayInStep_sample :
    CountsInv (at8 (cfg 1 .msbFirst .null 4) true true false true 0x00 0x00 7 8) ∧
    qualifies false (at8 (cfg 1 .msbFirst .null 4) true true false true 0x00 0x00 7 8) = true ∧
    sampleRole (cfg 1 .msbFirst .null 4).spi false = true := ⟨by simp only [CountsInv]; decide, by decide, by decide⟩

theorem witness_AggregateStaysTheOrOfTheFlags :
    AggregatorInv beforeLastEdge ∧ ∃ t, step beforeLastEdge = .next t := ⟨witness_Inv.aggregator, _, rfl⟩

theorem witness_KeyboardStateStaysCoherent :
    KeyboardInv beforeLastEdge ∧ ∃ t, step beforeLastEdge = .next t := ⟨witness_Inv.keyboard, _, rfl⟩

theorem witness_MisoShowsTheHeadInPhaseZero :
    MisoInv beforeLastEdge ∧ cpha kbdCfg.spi = false ∧ ∃ t, step beforeLastEdge = .next t :=
  ⟨witness_Inv.miso, by decide, _, rfl⟩

/-- A board of two transceivers, both at reset, the first with the keyboard client. -/
def twoUnits (second : Transceiver) : Board 2 where
  agg := kbdCfg.agg
  aggr := (State.ofConfig kbdCfg).aggr
  units := #v[Transceiver.ofConfig kbdCfg.spi, second]
  trace := []
  draws := 0
  pending := []

def otherUnit (mode : BitVec 2) : Transceiver := Transceiver.ofConfig (cfg mode .lsbFirst .null 2).spi

theorem witness_BoardTransceiversShareOnlyTheAggregator :
    ∃ b', boardExec 0 (.kbd 0x1C) (twoUnits (otherUnit 0)) = .next b' ∧ (1 : Fin 2) ≠ 0 := ⟨_, rfl, by decide⟩

theorem witness_BoardOtherTransceiversAreInvisible :
    (twoUnits (otherUnit 3)).units[(0 : Fin 2)] = (twoUnits (otherUnit 0)).units[(0 : Fin 2)] ∧
    (twoUnits (otherUnit 3)).units[(1 : Fin 2)] ≠ (twoUnits (otherUnit 0)).units[(1 : Fin 2)] ∧
    ∃ b', boardExec 0 (.sel true) (twoUnits (otherUnit 0)) = .next b' := ⟨rfl, by decide, _, rfl⟩

/-- RST at every transceiver of a running board takes each to its own start: `clk` is its own `CPOL`. -/
theorem witness_BoardStartsThroughReset :
    (match boardReset { twoUnits (otherUnit 3) with aggr := oneFlag 1 } with
      | .next b => decide (b = twoUnits (otherUnit 3))
      | .fault _ => false
      | .refused _ => false) = true ∧ (otherUnit 3).line.clk = true := by decide

theorem witness_PrintedTextAssembles :
    instrText (.src 15 true) = "SRC 15, 1".toList ∧ assembleLine vecCfg.spi "SRC 15, 1 ; ack".toList = some [.src 15 true] := by
  decide

end Sys2Proof.Tests
end

section
/-! How the decoder reads the words with a level operand (30_encoding.md R62): SEL, CLK, MOSI in format L, SRC in
format S. -/
namespace Sys2Proof

theorem levelOperand_eq_true_iff (data : Byte) : levelOperand data = true ↔ data ≠ 0 :=
  decide_eq_true_iff

theorem decodeData_wordOf_zero (op : BitVec 4) (data : Byte) (mk : Byte → Instr) :
    decodeData (wordOf op 0 data) mk = .ok (mk data) := by
  rw [decodeData, idxField_wordOf, if_pos rfl, dataField_wordOf]

theorem decodeSrc_wordOf {c : Config} {i : SrcIdx} (hi : i.val < c.agg.nSrc) (op : BitVec 4) (data : Byte) :
    decodeSrc c (wordOf op (BitVec.ofFin i) data) = .ok (.src i (levelOperand data)) := by
  simp [decodeSrc, hi]

theorem decode_wordOf_sel (c : Config) (data : Byte) :
    decode c (wordOf 0x1 0 data) = .ok (.sel (levelOperand data)) := by
  rw [decode, opField_wordOf]
  exact decodeData_wordOf_zero ..

theorem decode_wordOf_clk (c : Config) (data : Byte) :
    decode c (wordOf 0x2 0 data) = .ok (.clk (levelOperand data)) := by
  rw [decode, opField_wordOf]
  exact decodeData_wordOf_zero ..

theorem decode_wordOf_mosi (c : Config) (data : Byte) :
    decode c (wordOf 0x3 0 data) = .ok (.mosi (levelOperand data)) := by
  rw [decode, opField_wordOf]
  exact decodeData_wordOf_zero ..

theorem decode_wordOf_src {c : Config} {i : SrcIdx} (hi : i.val < c.agg.nSrc) (data : Byte) :
    decode c (wordOf 0x6 (BitVec.ofFin i) data) = .ok (.src i (levelOperand data)) := by
  rw [decode, opField_wordOf]
  exact decodeSrc_wordOf hi ..

/-- Settles O6: the level all four words decode to is `levelOperand data`. -/
theorem levelOperandsAreCoerced : Obligations.LevelOperandsAreCoerced := by
  intro c data i hi
  exact ⟨levelOperand data, levelOperand_eq_true_iff data, decode_wordOf_sel c data, decode_wordOf_clk c data,
    decode_wordOf_mosi c data, decode_wordOf_src hi data⟩

end Sys2Proof
end

section
/-! MOSI on a selected and on a deselected transceiver (40_line_ops.md R102). -/
namespace Sys2Proof
open Machine

theorem exec_mosi_of_deselected {s : State} (hsel : s.line.sel = false) (level : Level) :
    exec (.mosi level) s = .next s :=
  if_pos hsel

theorem exec_mosi_of_selected {s : State} (hsel : s.line.sel = true) (level : Level) :
    exec (.mosi level) s = .next (setMosi level s) :=
  if_neg (by simp [hsel])

/-- Settles O18: the decoder's half is `decode_wordOf_mosi`, the effect splits on `sel`. -/
theorem mosiStoresWhileSelected : Obligations.MosiStoresWhileSelected := by
  intro s data level
  refine ⟨decode_wordOf_mosi s.cfg data, ?_⟩
  cases hsel : s.line.sel with
  | false => exact exec_mosi_of_deselected hsel level
  | true => exact exec_mosi_of_selected hsel level

end Sys2Proof
end

section
/-! The mode/phase selector: the model's role of an edge against the rule's closed form and its table
(41_bit_engine.md R132, R133). -/
namespace Sys2Proof
open Machine

theorem isSampleEdge_eq_sampleRole (c : SpiConfig) (level : Level) : isSampleEdge c level = sampleRole c level := by
  simp only [isSampleEdge, isLeading, act, cpol, cpha, sampleRole]
  cases level <;> cases c.mode.getLsbD 1 <;> cases c.mode.getLsbD 0 <;> rfl

theorem isLeading_false (c : SpiConfig) : isLeading c false = !isLeading c true := by
  simp only [isLeading]
  cases act c <;> rfl

/-- A row of the table, from the two bits of its mode. -/
theorem edgeRoles_of_mode {c : SpiConfig} {m : BitVec 2} (hm : c.mode = m) :
    isLeading c true = !m.getLsbD 1 ∧
    isSampleEdge c true = !(m.getLsbD 1 ^^ m.getLsbD 0) ∧
    isSampleEdge c false = (m.getLsbD 1 ^^ m.getLsbD 0) := by
  subst hm
  refine ⟨?_, ?_, ?_⟩
  · simp [isLeading, act, cpol]
  · simp [isSampleEdge_eq_sampleRole, sampleRole]
  · simp [isSampleEdge_eq_sampleRole, sampleRole]

/-- Settles O21: the closed form on four bits, and each row of the table from the two bits of its mode. -/
theorem edgeRoleByModeAndLevel : Obligations.EdgeRoleByModeAndLevel := fun c =>
  ⟨isSampleEdge_eq_sampleRole c, edgeRoles_of_mode, edgeRoles_of_mode, edgeRoles_of_mode, edgeRoles_of_mode,
    isLeading_false c⟩

end Sys2Proof
end

section
/-! CLK on a qualifying edge: SAMPLE or SHIFT at the stored level, then COMPLETE when the edge ends the byte
(40_line_ops.md R101; 41_bit_engine.md R138, R139, R141). -/
namespace Sys2Proof
open Machine

theorem bitAction_of_sample {s : State} {level : Level} (hrole : sampleRole s.cfg.spi level = true) :
    bitAction level s = sample s :=
  if_pos ((isSampleEdge_eq_sampleRole ..).trans hrole)

theorem bitAction_of_shift {s : State} {level : Level} (hrole : sampleRole s.cfg.spi level = false) :
    bitAction level s = shift s :=
  if_neg (by simp [isSampleEdge_eq_sampleRole, hrole])

theorem execClk_eq_edge {s : State} {level : Level} (hq : qualifies level s = true) :
    execClk level s = edge level (setClk level s) := by
  obtain ⟨hsel, hclk⟩ : s.line.sel = true ∧ level ≠ s.line.clk := by simpa [qualifies] using hq
  rw [execClk, if_neg (by simp [hsel]), if_neg hclk]

/-- Both counts are 8 after the edge's own action exactly on the edge that ends the byte (41_bit_engine.md R141). -/
theorem byteDone_bitAction_setClk {s : State} {level : Level} (hq : qualifies level s = true) :
    byteDone (bitAction level (setClk level s)) = endsByte level s := by
  rw [endsByte, hq, Bool.true_and]
  cases hrole : sampleRole s.cfg.spi level with
  | true => simp [bitAction_of_sample (s := setClk level s) hrole, byteDone]
  | false => simp [bitAction_of_shift (s := setClk level s) hrole, byteDone, shift_xchg]

/-- CLK on a qualifying edge, whatever its role. -/
theorem exec_clk_of_qualifies {s : State} {level : Level} (hq : qualifies level s = true) :
    exec (.clk level) s =
      if endsByte level s then complete (bitAction level (setClk level s))
      else .next (bitAction level (setClk level s)) := by
  rw [← byteDone_bitAction_setClk hq]
  exact execClk_eq_edge hq

/-- The two ends of a qualifying edge, once its action is known to lead to `after`. -/
theorem exec_clk_of_bitAction_eq {s after : State} {level : Level} (hq : qualifies level s = true)
    (hafter : bitAction level (setClk level s) = after) :
    (endsByte level s = false → exec (.clk level) s = .next after) ∧
    (endsByte level s = true → exec (.clk level) s = complete after) := by
  rw [exec_clk_of_qualifies hq, hafter]
  exact ⟨fun h => if_neg (by simp [h]), fun h => if_pos h⟩

/-- SHIFT with `CPHA = 0` drives the head of the advanced byte (41_bit_engine.md R139). -/
theorem shift_of_cpha_zero {s : State} (hpha : cpha s.cfg.spi = false) :
    shift s = { s with
      line := { s.line with miso := head s.cfg.spi.bitOrder (adv s.cfg.spi.bitOrder s.xchg.sendShift) }
      xchg := { s.xchg with
        sendShift := adv s.cfg.spi.bitOrder s.xchg.sendShift
        sendCount := s.xchg.sendCount + 1 } } := by
  simp only [shift, hpha]
  rfl

/-- Settles O23: a sample edge is SAMPLE at the stored level. -/
theorem clkSampleEdge : Obligations.ClkSampleEdge := fun s level hq hrole =>
  exec_clk_of_bitAction_eq hq (bitAction_of_sample (s := setClk level s) hrole)

/-- Settles O24: a shift edge is SHIFT at the stored level, and with `CPHA = 0` it advances before it drives. -/
theorem clkShiftEdgePhaseZero : Obligations.ClkShiftEdgePhaseZero := fun s level hq hrole hpha =>
  exec_clk_of_bitAction_eq hq ((bitAction_of_shift (s := setClk level s) hrole).trans (shift_of_cpha_zero hpha))

end Sys2Proof
end

section
/-! SRC on an input that exists, on one that does not, and on a flag that already holds its value
(43_interrupt_aggregator.md R202 to R204; 30_encoding.md R66 item 4). -/
namespace Sys2Proof
open Machine

theorem hasSource_iff (c : AggConfig) (i : SrcIdx) : hasSource c i = true ↔ i.val < c.nSrc :=
  decide_eq_true_iff

theorem hasSource_false_iff (c : AggConfig) (i : SrcIdx) : hasSource c i = false ↔ c.nSrc ≤ i.val :=
  decide_eq_false_iff_not.trans Nat.not_lt

theorem wiredOr_eq_decide (c : AggConfig) (f : Vector Level 16) :
    wiredOr c f = decide (∃ j : SrcIdx, j.val < c.nSrc ∧ f[j] = true) := by
  rw [Bool.eq_iff_iff, wiredOr_iff, decide_eq_true_iff]
  simp only [hasSource_iff]

theorem decodeSrc_wordOf_of_le {c : Config} {i : SrcIdx} (hi : c.agg.nSrc ≤ i.val) (op : BitVec 4) (data : Byte) :
    decodeSrc c (wordOf op (BitVec.ofFin i) data) = .error .noSuchSource := by
  simp [decodeSrc, hi]

theorem decode_wordOf_src_of_le {c : Config} {i : SrcIdx} (hi : c.agg.nSrc ≤ i.val) (data : Byte) :
    decode c (wordOf 0x6 (BitVec.ofFin i) data) = .error .noSuchSource := by
  rw [decode, opField_wordOf]
  exact decodeSrc_wordOf_of_le hi ..

theorem setSource_of_not_has {i : SrcIdx} {s : State} (h : hasSource s.cfg.agg i = false) (raw : Level) :
    setSource i raw s = .refused .noSuchSource :=
  if_neg (by simp [h])

theorem setFlag_of_held {s : State} {i : SrcIdx} {v : Level} (hheld : s.aggr.flag[i] = v) : setFlag i v s = s := by
  subst hheld
  simp [setFlag]

theorem recompute_of_agg {s : State} (hagg : s.aggr.agg = wiredOr s.cfg.agg s.aggr.flag) : recompute s = s :=
  if_pos hagg.symm

theorem exec_src_eq_recompute {s : State} {i : SrcIdx} (hi : i.val < s.cfg.agg.nSrc) (raw : Level) :
    exec (.src i raw) s = .next (recompute (setFlag i (logicalFlag s.cfg.agg i raw) s)) :=
  setSource_of_has ((hasSource_iff ..).2 hi) raw

/-- SRC on an input that exists: the flag is set, `agg` is the OR of the flags, and a change of `agg` is told. -/
theorem exec_src_of_lt {s : State} {i : SrcIdx} (hi : i.val < s.cfg.agg.nSrc) (raw : Level) :
    exec (.src i raw) s =
      let flag := s.aggr.flag.set i (raw ^^ s.cfg.agg.inv[i])
      let new := decide (∃ j : SrcIdx, j.val < s.cfg.agg.nSrc ∧ flag[j] = true)
      .next { s with
        aggr := ⟨flag, new⟩
        trace := if new = s.aggr.agg then s.trace else s.trace ++ [.irqChange new] } := by
  rw [exec_src_eq_recompute hi, recompute_eq, wiredOr_eq_decide]
  rfl

/-- SRC that sets a flag to the value it holds (43_interrupt_aggregator.md R202). -/
theorem exec_src_of_held {s : State} {i : SrcIdx} {raw : Level} (hi : i.val < s.cfg.agg.nSrc) (hinv : AggregatorInv s)
    (hheld : s.aggr.flag[i] = (raw ^^ s.cfg.agg.inv[i])) : exec (.src i raw) s = .next s := by
  obtain ⟨hagg, -⟩ := hinv
  rw [exec_src_eq_recompute hi, logicalFlag, setFlag_of_held hheld, recompute_of_agg hagg]

theorem exec_src_of_le {s : State} {i : SrcIdx} (hi : s.cfg.agg.nSrc ≤ i.val) (raw : Level) :
    exec (.src i raw) s = .refused .noSuchSource :=
  setSource_of_not_has ((hasSource_false_iff ..).2 hi) raw

/-- Settles O35, by whether input i exists. -/
theorem srcSetsFlagAndAggregate : Obligations.SrcSetsFlagAndAggregate := fun _ _ data =>
  ⟨fun hi => ⟨decode_wordOf_src hi data, exec_src_of_lt hi _, exec_src_of_held hi⟩,
    fun hi => ⟨decode_wordOf_src_of_le hi data, exec_src_of_le hi _⟩⟩

end Sys2Proof
end

section
/-! What the decoder reads from a word, as one equivalence, and what each format refuses (30_encoding.md R61 to R66).
The round trips and the opcode map follow from it. -/
namespace Sys2Proof
open Machine

/-! ## The formats -/

theorem decodeData_eq_ok {w : Word} {mk : Byte → Instr} {i : Instr} :
    decodeData w mk = .ok i ↔ idxField w = 0 ∧ mk (dataField w) = i := by
  unfold decodeData; split <;> simp_all

theorem decodeData_eq_error {w : Word} {mk : Byte → Instr} {r : Reject} :
    decodeData w mk = .error r ↔ r = .reservedField ∧ idxField w ≠ 0 := by
  unfold decodeData; split <;> simp_all [eq_comm]

theorem decodeNone_eq_ok {w : Word} {i j : Instr} :
    decodeNone w i = .ok j ↔ (idxField w = 0 ∧ dataField w = 0) ∧ i = j := by
  unfold decodeNone; split <;> simp_all

theorem decodeNone_eq_error {w : Word} {i : Instr} {r : Reject} :
    decodeNone w i = .error r ↔ r = .reservedField ∧ (idxField w ≠ 0 ∨ dataField w ≠ 0) := by
  unfold decodeNone; split <;> grind

theorem decodeSrc_eq_ok {c : Config} {w : Word} {i : Instr} :
    decodeSrc c w = .ok i ↔
      (idxField w).toNat < c.agg.nSrc ∧
        .src (indexOperand (idxField w)) (levelOperand (dataField w)) = i := by
  by_cases h : (idxField w).toNat < c.agg.nSrc <;> simp [decodeSrc, indexOperand, h]

theorem decodeSrc_eq_error {c : Config} {w : Word} {r : Reject} :
    decodeSrc c w = .error r ↔ r = .noSuchSource ∧ c.agg.nSrc ≤ (idxField w).toNat := by
  by_cases h : (idxField w).toNat < c.agg.nSrc
  · simp [decodeSrc, indexOperand, h]
  · simp [decodeSrc, indexOperand, h, Nat.le_of_not_lt h, eq_comm]

theorem decodeKbd_eq_ok {c : Config} {w : Word} {i : Instr} :
    decodeKbd c w = .ok i ↔ (idxField w = 0 ∧ c.spi.client = .keyboard) ∧ .kbd (dataField w) = i := by
  unfold decodeKbd; split
  · split <;> simp_all
  · simp_all

theorem decodeKbd_eq_error {c : Config} {w : Word} {r : Reject} :
    decodeKbd c w = .error r ↔
      (r = .reservedField ∧ idxField w ≠ 0) ∨
      (r = .noKeyboardClient ∧ idxField w = 0 ∧ c.spi.client ≠ .keyboard) := by
  unfold decodeKbd; split
  · split <;> grind
  · grind

/-- The decoder, opcode by opcode (30_encoding.md R65). -/
theorem decode_by_opcode (c : Config) (w : Word) :
    ((opField w).toNat = 0x1 ∧ decode c w = decodeData w fun d => .sel (levelOperand d)) ∨
    ((opField w).toNat = 0x2 ∧ decode c w = decodeData w fun d => .clk (levelOperand d)) ∨
    ((opField w).toNat = 0x3 ∧ decode c w = decodeData w fun d => .mosi (levelOperand d)) ∨
    ((opField w).toNat = 0x4 ∧ decode c w = decodeNone w .miso) ∨
    ((opField w).toNat = 0x5 ∧ decode c w = decodeData w .arm) ∨
    ((opField w).toNat = 0x6 ∧ decode c w = decodeSrc c w) ∨
    ((opField w).toNat = 0x7 ∧ decode c w = decodeNone w .irq) ∨
    ((opField w).toNat = 0x8 ∧ decode c w = decodeKbd c w) ∨
    ((opField w).toNat = 0xF ∧ decode c w = decodeNone w .rst) ∨
    (((opField w).toNat = 0x0 ∨ 0x9 ≤ (opField w).toNat ∧ (opField w).toNat ≤ 0xE) ∧
      decode c w = .error .reservedOpcode) := by
  have hlt := (opField w).isLt
  unfold decode
  split <;> simp only [*] <;> grind

/-! ## What a word decodes to -/

/-- `OP` of a row of the opcode map (30_encoding.md R65). -/
def Mnemonic.opcode : Mnemonic → Nat
  | .SEL => 0x1
  | .CLK => 0x2
  | .MOSI => 0x3
  | .MISO => 0x4
  | .ARM => 0x5
  | .SRC => 0x6
  | .IRQ => 0x7
  | .KBD => 0x8
  | .RST => 0xF

/-- `IDX` and `DATA` of the word hold the operation's operands, in the format of its row (30_encoding.md R61 to R64). -/
def OperandsIn (w : Word) : Instr → Prop
  | .sel v | .clk v | .mosi v => idxField w = 0 ∧ levelOperand (dataField w) = v
  | .miso | .irq | .rst => idxField w = 0 ∧ dataField w = 0
  | .arm b | .kbd b => idxField w = 0 ∧ dataField w = b
  | .src i v => indexOperand (idxField w) = i ∧ levelOperand (dataField w) = v

theorem decode_of_operandsIn {c : Config} {w : Word} {i : Instr} (hop : (opField w).toNat = i.mnemonic.opcode)
    (hin : OperandsIn w i) (hwf : i.wf c = true) : decode c w = .ok i := by
  cases i <;> simp only [Instr.mnemonic, Mnemonic.opcode] at hop <;> simp only [OperandsIn] at hin <;>
    simp only [decode, hop]
  case sel | clk | mosi => rw [← hin.2]; exact decodeData_eq_ok.2 ⟨hin.1, rfl⟩
  case miso | irq | rst => exact decodeNone_eq_ok.2 ⟨hin, rfl⟩
  case arm => exact decodeData_eq_ok.2 ⟨hin.1, congrArg _ hin.2⟩
  case kbd => exact decodeKbd_eq_ok.2 ⟨⟨hin.1, of_decide_eq_true hwf⟩, congrArg _ hin.2⟩
  case src i v =>
    obtain ⟨rfl, rfl⟩ := hin
    exact decodeSrc_eq_ok.2 ⟨of_decide_eq_true hwf, rfl⟩

theorem operandsIn_of_decode {c : Config} {w : Word} {i : Instr} (h : decode c w = .ok i) :
    (opField w).toNat = i.mnemonic.opcode ∧ OperandsIn w i ∧ i.wf c = true := by
  rcases decode_by_opcode c w with ⟨hop, hd⟩ | ⟨hop, hd⟩ | ⟨hop, hd⟩ | ⟨hop, hd⟩ | ⟨hop, hd⟩ | ⟨hop, hd⟩ |
    ⟨hop, hd⟩ | ⟨hop, hd⟩ | ⟨hop, hd⟩ | ⟨-, hd⟩ <;> rw [hd] at h
  · obtain ⟨hidx, rfl⟩ := decodeData_eq_ok.1 h; exact ⟨hop, ⟨hidx, rfl⟩, rfl⟩
  · obtain ⟨hidx, rfl⟩ := decodeData_eq_ok.1 h; exact ⟨hop, ⟨hidx, rfl⟩, rfl⟩
  · obtain ⟨hidx, rfl⟩ := decodeData_eq_ok.1 h; exact ⟨hop, ⟨hidx, rfl⟩, rfl⟩
  · obtain ⟨hzero, rfl⟩ := decodeNone_eq_ok.1 h; exact ⟨hop, hzero, rfl⟩
  · obtain ⟨hidx, rfl⟩ := decodeData_eq_ok.1 h; exact ⟨hop, ⟨hidx, rfl⟩, rfl⟩
  · obtain ⟨hlt, rfl⟩ := decodeSrc_eq_ok.1 h; exact ⟨hop, ⟨rfl, rfl⟩, decide_eq_true hlt⟩
  · obtain ⟨hzero, rfl⟩ := decodeNone_eq_ok.1 h; exact ⟨hop, hzero, rfl⟩
  · obtain ⟨⟨hidx, hkbd⟩, rfl⟩ := decodeKbd_eq_ok.1 h; exact ⟨hop, ⟨hidx, rfl⟩, decide_eq_true hkbd⟩
  · obtain ⟨hzero, rfl⟩ := decodeNone_eq_ok.1 h; exact ⟨hop, hzero, rfl⟩
  · cases h

/-- The decoder's whole positive meaning: the opcode is the operation's, the fields hold its operands, and the block
has the operation (30_encoding.md R65, R66). -/
theorem decode_eq_ok_iff {c : Config} {w : Word} {i : Instr} :
    decode c w = .ok i ↔ (opField w).toNat = i.mnemonic.opcode ∧ OperandsIn w i ∧ i.wf c = true :=
  ⟨operandsIn_of_decode, fun ⟨hop, hin, hwf⟩ => decode_of_operandsIn hop hin hwf⟩

/-! ## Round trips -/

theorem opField_encode (i : Instr) : (opField (encode i)).toNat = i.mnemonic.opcode := by
  cases i <;> simp only [encode, opField_wordOf] <;> rfl

theorem operandsIn_encode (i : Instr) : OperandsIn (encode i) i := by
  cases i <;> simp [OperandsIn, encode]

theorem decode_encode {c : Config} {i : Instr} (hwf : i.wf c = true) : decode c (encode i) = .ok i :=
  decode_of_operandsIn (opField_encode i) (operandsIn_encode i) hwf

/-- Settles O1: `encode` writes the opcode and the operands the decoder looks for. -/
theorem decodeEncodeRoundTrip : Obligations.DecodeEncodeRoundTrip := by
  intro c i hwf
  refine ⟨decode_encode hwf, fun rest => ?_⟩
  simp only [decodeBytes, takeWord_bytesOfWord, decode_encode hwf]

/-- A word with opcode `op`, written from its own fields. -/
theorem eq_wordOf_of_opField {w : Word} {op : BitVec 4} (hop : (opField w).toNat = op.toNat) :
    w = wordOf op (idxField w) (dataField w) := by
  rw [← BitVec.eq_of_toNat_eq hop, wordOf_fields]

theorem canonicalLevel_wordOf_of_level {op : BitVec 4} (hop : op.toNat ∈ [0x1, 0x2, 0x3, 0x6]) (idx : BitVec 4)
    (d : Byte) : canonicalLevel (wordOf op idx d) = wordOf op idx (levelData (levelOperand d)) := by
  simp only [List.mem_cons, List.not_mem_nil, or_false] at hop
  rcases hop with h | h | h | h <;> simp [canonicalLevel, h]

theorem canonicalLevel_wordOf_of_not_level {op : BitVec 4} (hop : op.toNat ∉ [0x1, 0x2, 0x3, 0x6]) (idx : BitVec 4)
    (d : Byte) : canonicalLevel (wordOf op idx d) = wordOf op idx d := by
  unfold canonicalLevel
  split <;> simp_all

theorem encode_eq_canonicalLevel {w : Word} {i : Instr} (hop : (opField w).toNat = i.mnemonic.opcode)
    (hin : OperandsIn w i) : encode i = canonicalLevel w := by
  cases i <;> simp only [OperandsIn] at hin
  case sel v =>
    rw [eq_wordOf_of_opField (op := 0x1) hop, canonicalLevel_wordOf_of_level (by decide), hin.1, hin.2]; rfl
  case clk v =>
    rw [eq_wordOf_of_opField (op := 0x2) hop, canonicalLevel_wordOf_of_level (by decide), hin.1, hin.2]; rfl
  case mosi v =>
    rw [eq_wordOf_of_opField (op := 0x3) hop, canonicalLevel_wordOf_of_level (by decide), hin.1, hin.2]; rfl
  case miso =>
    rw [eq_wordOf_of_opField (op := 0x4) hop, canonicalLevel_wordOf_of_not_level (by decide), hin.1, hin.2]; rfl
  case arm b =>
    rw [eq_wordOf_of_opField (op := 0x5) hop, canonicalLevel_wordOf_of_not_level (by decide), hin.1, hin.2]; rfl
  case src i v =>
    rw [eq_wordOf_of_opField (op := 0x6) hop, canonicalLevel_wordOf_of_level (by decide), hin.2, ← hin.1]; rfl
  case irq =>
    rw [eq_wordOf_of_opField (op := 0x7) hop, canonicalLevel_wordOf_of_not_level (by decide), hin.1, hin.2]; rfl
  case kbd b =>
    rw [eq_wordOf_of_opField (op := 0x8) hop, canonicalLevel_wordOf_of_not_level (by decide), hin.1, hin.2]; rfl
  case rst =>
    rw [eq_wordOf_of_opField (op := 0xF) hop, canonicalLevel_wordOf_of_not_level (by decide), hin.1, hin.2]; rfl

/-- Settles O2: the decoded operation's word has the fields of the word it was read from. -/
theorem decodedWordReencodes : Obligations.DecodedWordReencodes := by
  intro c w i h
  obtain ⟨hop, hin, hwf⟩ := decode_eq_ok_iff.1 h
  exact ⟨encode_eq_canonicalLevel hop hin, hwf⟩

end Sys2Proof
end

section
/-! The opcode map against the decoder (30_encoding.md R65): which words a row covers, field by field; which words are
refused (R66); and the `CFG` view (10_state.md R22). -/
namespace Sys2Proof
open Machine

/-! ## Rows -/

theorem word_eq_iff_fields {w v : Word} :
    w = v ↔ opField w = opField v ∧ idxField w = idxField v ∧ dataField w = dataField v := by
  refine ⟨fun h => h ▸ ⟨rfl, rfl, rfl⟩, fun ⟨hop, hidx, hdata⟩ => ?_⟩
  rw [← wordOf_fields w, ← wordOf_fields v, hop, hidx, hdata]

/-- A row covers a word field by field. -/
theorem covers_iff_fields {r : OpcodeRow} {w : Word} :
    r.covers w = true ↔
      opField w &&& opField r.mask = opField r.fixedBits ∧
      idxField w &&& idxField r.mask = idxField r.fixedBits ∧
      dataField w &&& dataField r.mask = dataField r.fixedBits := by
  rw [OpcodeRow.covers, beq_iff_eq, word_eq_iff_fields]
  simp only [opField, idxField, dataField, BitVec.extractLsb'_and]

theorem and_nibble_ones (x : BitVec 4) : x &&& 15#4 = x := BitVec.and_allOnes

theorem and_byte_ones (x : Byte) : x &&& 255#8 = x := BitVec.and_allOnes

/-- Formats L and B fix `OP` and `IDX`. -/
theorem covers_data_iff {m : Mnemonic} {op : BitVec 4} {w : Word} :
    OpcodeRow.covers ⟨m, wordOf op 0 0, wordOf 0xF 0xF 0⟩ w = true ↔ opField w = op ∧ idxField w = 0 := by
  simp [covers_iff_fields, and_nibble_ones]

/-- Format N fixes every bit. -/
theorem covers_none_iff {m : Mnemonic} {op : BitVec 4} {w : Word} :
    OpcodeRow.covers ⟨m, wordOf op 0 0, wordOf 0xF 0xF 0xFF⟩ w = true ↔
      opField w = op ∧ idxField w = 0 ∧ dataField w = 0 := by
  simp [covers_iff_fields, and_nibble_ones, and_byte_ones]

/-- Format S fixes `OP` only. -/
theorem covers_src_iff {m : Mnemonic} {op : BitVec 4} {w : Word} :
    OpcodeRow.covers ⟨m, wordOf op 0 0, wordOf 0xF 0 0⟩ w = true ↔ opField w = op := by
  simp [covers_iff_fields, and_nibble_ones]

/-- Every row fixes the whole of `OP`. -/
theorem opField_of_covers {r : OpcodeRow} (hr : r ∈ opcodeTable) {w : Word} (h : r.covers w = true) :
    opField w = opField r.fixedBits := by
  have hmask : ∀ r ∈ opcodeTable, opField r.mask = 0xF := by decide
  obtain ⟨hop, -, -⟩ := covers_iff_fields.1 h
  rwa [hmask r hr, show (0xF : BitVec 4) = 15#4 from rfl, and_nibble_ones] at hop

/-- No two rows of the opcode map have the same `OP`. -/
theorem row_eq_of_opField_eq :
    ∀ r ∈ opcodeTable, ∀ q ∈ opcodeTable, opField r.fixedBits = opField q.fixedBits → r = q := by decide

/-- Settles O3: two rows that cover one word have its `OP`, which no two rows share. -/
theorem opcodeRowsNeverOverlap : Obligations.OpcodeRowsNeverOverlap := by
  intro w r q hr hq hrw hqw
  exact row_eq_of_opField_eq r hr q hq ((opField_of_covers hr hrw).symm.trans (opField_of_covers hq hqw))

/-- The fixed bits of mnemonic m's row, read off the word's fields (30_encoding.md R61, R65). -/
def FixedBitsIn (w : Word) (m : Mnemonic) : Prop :=
  (opField w).toNat = m.opcode ∧ (m ≠ .SRC → idxField w = 0) ∧
    (m = .MISO ∨ m = .IRQ ∨ m = .RST → dataField w = 0)

theorem exists_row_iff (w : Word) (m : Mnemonic) :
    (∃ r ∈ opcodeTable, r.mnemonic = m ∧ r.covers w = true) ↔ FixedBitsIn w m := by
  have hop : ∀ op : BitVec 4, (opField w).toNat = op.toNat ↔ opField w = op := fun _ => BitVec.toNat_inj
  cases m <;> simp only [opcodeTable, List.mem_cons, List.not_mem_nil, or_false, exists_eq_or_imp, exists_eq_left,
    FixedBitsIn, Mnemonic.opcode, reduceCtorEq, false_and, true_and, false_or, or_false, ne_eq, not_false_eq_true,
    not_true_eq_false, or_true, forall_const, false_implies, and_true]
  case SEL => exact covers_data_iff.trans (and_congr_left' (hop 0x1).symm)
  case CLK => exact covers_data_iff.trans (and_congr_left' (hop 0x2).symm)
  case MOSI => exact covers_data_iff.trans (and_congr_left' (hop 0x3).symm)
  case MISO => exact covers_none_iff.trans (and_congr_left' (hop 0x4).symm)
  case ARM => exact covers_data_iff.trans (and_congr_left' (hop 0x5).symm)
  case SRC => exact covers_src_iff.trans (hop 0x6).symm
  case IRQ => exact covers_none_iff.trans (and_congr_left' (hop 0x7).symm)
  case KBD => exact covers_data_iff.trans (and_congr_left' (hop 0x8).symm)
  case RST => exact covers_none_iff.trans (and_congr_left' (hop 0xF).symm)

theorem exists_decode_iff (c : Config) (w : Word) (m : Mnemonic) :
    (∃ i, decode c w = .ok i ∧ i.mnemonic = m) ↔
      FixedBitsIn w m ∧ (m = .SRC → (indexOperand (idxField w)).val < c.agg.nSrc) ∧
        (m = .KBD → c.spi.client = .keyboard) := by
  simp only [decode_eq_ok_iff, FixedBitsIn]
  constructor
  · rintro ⟨i, ⟨hop, hin, hwf⟩, rfl⟩
    refine ⟨⟨hop, ?_⟩, ?_⟩ <;> cases i <;> simp_all [OperandsIn, Instr.wf, Instr.mnemonic]
  · rintro ⟨⟨hop, hidx, hdata⟩, hsrc, hkbd⟩
    cases m
    case SEL => exact ⟨.sel _, ⟨hop, ⟨hidx (by decide), rfl⟩, rfl⟩, rfl⟩
    case CLK => exact ⟨.clk _, ⟨hop, ⟨hidx (by decide), rfl⟩, rfl⟩, rfl⟩
    case MOSI => exact ⟨.mosi _, ⟨hop, ⟨hidx (by decide), rfl⟩, rfl⟩, rfl⟩
    case MISO => exact ⟨.miso, ⟨hop, ⟨hidx (by decide), hdata (by decide)⟩, rfl⟩, rfl⟩
    case ARM => exact ⟨.arm _, ⟨hop, ⟨hidx (by decide), rfl⟩, rfl⟩, rfl⟩
    case SRC => exact ⟨.src _ _, ⟨hop, ⟨rfl, rfl⟩, decide_eq_true (hsrc rfl)⟩, rfl⟩
    case IRQ => exact ⟨.irq, ⟨hop, ⟨hidx (by decide), hdata (by decide)⟩, rfl⟩, rfl⟩
    case KBD => exact ⟨.kbd _, ⟨hop, ⟨hidx (by decide), rfl⟩, decide_eq_true (hkbd rfl)⟩, rfl⟩
    case RST => exact ⟨.rst, ⟨hop, ⟨hidx (by decide), hdata (by decide)⟩, rfl⟩, rfl⟩

/-- Settles O4: the row and the decoder look at the same fields. -/
theorem coveredWordDecodesToItsRow : Obligations.CoveredWordDecodesToItsRow := by
  intro c w m
  rw [exists_decode_iff, exists_row_iff]

/-! ## Refusals -/

/-- Settles O5: the refusals of each format, at the opcodes that have it. -/
theorem refusedWordReasons : Obligations.RefusedWordReasons := by
  intro c w
  rcases decode_by_opcode c w with ⟨hop, hd⟩ | ⟨hop, hd⟩ | ⟨hop, hd⟩ | ⟨hop, hd⟩ | ⟨hop, hd⟩ | ⟨hop, hd⟩ |
    ⟨hop, hd⟩ | ⟨hop, hd⟩ | ⟨hop, hd⟩ | ⟨hop, hd⟩
  case inr.inr.inr.inr.inr.inr.inr.inr.inr =>
    have hrow : (opField w).toNat ∉ [0x1, 0x2, 0x3, 0x5, 0x8, 0x4, 0x7, 0xF] ∧ (opField w).toNat ∉ [0x4, 0x7, 0xF] ∧
        (opField w).toNat ≠ 0x6 ∧ (opField w).toNat ≠ 0x8 := by
      simp only [List.mem_cons, List.not_mem_nil, or_false, not_or]; omega
    simp [hd, hop, hrow]
  all_goals
    simp [hop, hd, decodeData_eq_error, decodeNone_eq_error, decodeSrc_eq_error, decodeKbd_eq_error]

/-- Settles O7, word by word. -/
theorem writtenOutWordsDecode : Obligations.WrittenOutWordsDecode :=
  ⟨rfl, rfl, rfl, rfl, rfl, rfl, rfl, rfl, rfl⟩

/-! ## The view `CFG` -/

theorem getLsbD_cfgWord (c : SpiConfig) (k : Nat) :
    c.cfgWord.getLsbD k =
      if k < 2 then c.mode.getLsbD k else k == 2 && decide (c.bitOrder = .lsbFirst) := by
  show (((0 : BitVec 5) ++ BitVec.ofBool (decide (c.bitOrder = .lsbFirst)) : BitVec 6) ++ c.mode :
    BitVec 8).getLsbD k = _
  rw [BitVec.getLsbD_append, BitVec.getLsbD_append]
  split
  · rfl
  · next hk =>
    by_cases h2 : k = 2
    · subst h2; simp
    · simp [h2, show k - 2 ≠ 0 by omega]

theorem extractLsb'_eq_zero_iff (w : Byte) : w.extractLsb' 3 5 = 0 ↔ w.toNat < 8 := by
  rw [← BitVec.toNat_inj, BitVec.extractLsb'_toNat, Nat.shiftRight_eq_div_pow]
  have := w.isLt
  show w.toNat / 8 % 32 = 0 ↔ _
  omega

theorem withCfgWord_eq_some {c d : SpiConfig} {w : Byte} :
    c.withCfgWord w = some d ↔ w.toNat < 8 ∧
      { c with mode := w.extractLsb' 0 2, bitOrder := if w.getLsbD 2 then .lsbFirst else .msbFirst } = d := by
  rw [← extractLsb'_eq_zero_iff]
  unfold SpiConfig.withCfgWord
  split
  · next h => simp only [h, true_and, Option.some.injEq]
  · next h => simp only [h, false_and, reduceCtorEq]

theorem withCfgWord_eq_none {c : SpiConfig} {w : Byte} : c.withCfgWord w = none ↔ 8 ≤ w.toNat := by
  rw [← Nat.not_lt, ← extractLsb'_eq_zero_iff]
  unfold SpiConfig.withCfgWord
  split
  · next h => simp only [h, not_true_eq_false, reduceCtorEq]
  · next h => simp only [h, not_false_eq_true]

theorem cfgWord_lt (c : SpiConfig) : c.cfgWord.toNat < 8 := by
  rw [← extractLsb'_eq_zero_iff]
  apply BitVec.eq_of_getLsbD_eq
  intro k hk
  rw [BitVec.getLsbD_extractLsb', getLsbD_cfgWord, if_neg (by omega), beq_false_of_ne (by omega)]
  simp

theorem withCfgWord_cfgWord (c : SpiConfig) : c.withCfgWord c.cfgWord = some c := by
  have hmode : c.cfgWord.extractLsb' 0 2 = c.mode := by
    apply BitVec.eq_of_getLsbD_eq
    intro k hk
    simp [getLsbD_cfgWord, hk]
  have horder : (if c.cfgWord.getLsbD 2 then BitOrder.lsbFirst else .msbFirst) = c.bitOrder := by
    rw [getLsbD_cfgWord]
    cases c.bitOrder <;> rfl
  rw [withCfgWord_eq_some, hmode, horder]
  exact ⟨cfgWord_lt c, rfl⟩

/-- A word below 8 has no bit from 3 up. -/
theorem getLsbD_of_lt_eight {w : Byte} (hw : w.toNat < 8) {k : Nat} (hk : 3 ≤ k) : w.getLsbD k = false :=
  Nat.testBit_lt_two_pow (Nat.lt_of_lt_of_le hw (Nat.pow_le_pow_right (n := 2) (by decide) hk))

theorem cfgWord_withCfgWord {c d : SpiConfig} {w : Byte} (h : c.withCfgWord w = some d) : d.cfgWord = w := by
  obtain ⟨hw, rfl⟩ := withCfgWord_eq_some.1 h
  apply BitVec.eq_of_getLsbD_eq
  intro k hk
  rw [getLsbD_cfgWord]
  split
  · next h2 => simp [h2]
  · next h2 =>
    by_cases hk2 : k = 2
    · subst hk2; cases w.getLsbD 2 <;> rfl
    · rw [getLsbD_of_lt_eight hw (k := k) (by omega), beq_false_of_ne hk2, Bool.false_and]

/-- Settles O8: the bits of `cfgWord`, and the two round trips. -/
theorem cfgWordLayout : Obligations.CfgWordLayout := by
  intro c
  refine ⟨⟨getLsbD_cfgWord c 0, getLsbD_cfgWord c 1, getLsbD_cfgWord c 2, cfgWord_lt c⟩, withCfgWord_cfgWord c,
    fun w => ⟨withCfgWord_eq_none, fun d => cfgWord_withCfgWord⟩⟩

end Sys2Proof
end

section
/-! One step over the host's next word (20_memory.md R54, 30_encoding.md R66 to R68), and the operations that touch
neither the bit engine nor a client: MISO, ARM, IRQ, RST, and the refusals of SRC and KBD. -/
namespace Sys2Proof
open Machine

/-! ## Steps -/

theorem step_of_decode {s : State} {w : Word} {ws : List Word} {i : Instr} (hp : s.pending = w :: ws)
    (hd : decode s.cfg w = .ok i) : step s = exec i (setPending ws s) := by
  simp [step, fetch, hp, hd]

theorem step_of_reject {s : State} {w : Word} {ws : List Word} {r : Reject} (hp : s.pending = w :: ws)
    (hd : decode s.cfg w = .error r) : step s = .refused (refusalOf r) := by
  simp [step, fetch, hp, hd]

theorem step_of_idle {s : State} (hp : s.pending = []) : step s = .next s := by
  simp [step, fetch, hp]

/-- Settles O9. -/
theorem stepRunsDecodedWord : Obligations.StepRunsDecodedWord := fun _ _ _ _ hp hd => step_of_decode hp hd

/-- Settles O10. -/
theorem stepRefusesOrIdles : Obligations.StepRefusesOrIdles :=
  ⟨fun _ _ _ _ hp hd => step_of_reject hp hd, fun _ hp => step_of_idle hp⟩

/-! ## Refused operations -/

theorem exec_kbd_of_not_keyboard {s : State} (hc : s.cfg.spi.client ≠ .keyboard) (b : Byte) :
    exec (.kbd b) s = .refused .noKeyboardClient :=
  if_neg hc

theorem exec_kbd_of_keyboard {s : State} (hc : s.cfg.spi.client = .keyboard) (b : Byte) :
    exec (.kbd b) s = setKirq true (setKbd { s.kbd with scancodeBuffer := b, bufferFull := true } s) :=
  if_pos hc

/-- Settles O13. -/
theorem absentOperationsAreRefused : Obligations.AbsentOperationsAreRefused := fun _ =>
  ⟨fun _ raw hi => exec_src_of_le hi raw, fun b hc => exec_kbd_of_not_keyboard hc b⟩

/-! ## Operations with one effect -/

theorem exec_miso (s : State) : exec .miso s = .next (emit (.misoRead s.line.miso) s) := rfl

theorem exec_arm (b : Byte) (s : State) : exec (.arm b) s = .next (armByte b s) := rfl

theorem exec_irq (s : State) : exec .irq s = .next (emit (.irqRead s.aggr.agg) s) := rfl

theorem exec_rst (s : State) : exec .rst s = .next (resetBlock s) := rfl

/-- Settles O19. -/
theorem misoIsPureRead : Obligations.MisoIsPureRead := exec_miso

/-- Settles O20: the bit driven is `head`, spelt out for either bit order. -/
theorem armLoadsAndDrives : Obligations.ArmLoadsAndDrives := by
  intro s b
  rw [exec_arm, armByte, setMiso, setSendShift]
  cases s.cfg.spi.bitOrder <;> rfl

/-- Settles O36. -/
theorem irqReadsAggregate : Obligations.IrqReadsAggregate := exec_irq

theorem clientStart_eq_match (c : Client) : clientStart c = match c with
    | .scripted p => p.start
    | _ => 0 := by
  cases c <;> rfl

/-- Settles O41: what is left to see is the client's own start state. -/
theorem rstResetsSilently : Obligations.RstResetsSilently := by
  intro s
  rw [exec_rst, resetBlock, clientStart_eq_match]
  rfl

/-- Settles O42: `resetBlock` and `State.ofConfig` write the same reset values. -/
theorem powerOnEqualsReset : Obligations.PowerOnEqualsReset := exec_rst

/-- Settles O22: CLK tests `sel` and the stored level, as `qualifies` does. -/
theorem clkWithoutEdgeChangesNothing : Obligations.ClkWithoutEdgeChangesNothing := by
  intro s level hq
  show execClk level s = .next s
  rw [execClk]
  cases hsel : s.line.sel with
  | false => exact if_pos rfl
  | true =>
    have hclk : level = s.line.clk := by simpa [qualifies, hsel] using hq
    rw [if_neg (by decide), if_pos hclk]

end Sys2Proof
end

section
/-! The points at which an operation calls a client handler: the select edges and the end of a byte. `atHandler` is the
state the handler is called in, `runHandler` the call with what is done with its result (40_line_ops.md R100,
41_bit_engine.md R142 to R144). -/
namespace Sys2Proof.Machine

/-! ## The states a handler is called in -/

/-- What SEL does at an edge before it calls the handler (40_line_ops.md R100). -/
def selEdge (level : Level) (s : State) : State :=
  if level then
    { s with line := { s.line with sel := true }, xchg := { s.xchg with recvCount := 0, sendCount := 0 },
             trace := s.trace ++ [.selected] }
  else { s with line := { s.line with sel := false }, trace := s.trace ++ [.deselected] }

/-- What the edge that ends a byte does before it calls the handler (41_bit_engine.md R138 to R142). -/
def byteEnd (level : Level) (s : State) : State :=
  { s with
    line := { s.line with clk := level, miso := false }
    xchg := ⟨receivedByte level s, 0x00, 0, 0⟩
    trace := s.trace ++ [.byteExchanged (receivedByte level s)] }

section
variable (level : Level) (s : State)

@[simp] theorem selEdge_cfg : (selEdge level s).cfg = s.cfg := by cases level <;> rfl
@[simp] theorem selEdge_line : (selEdge level s).line = { s.line with sel := level } := by cases level <;> rfl
@[simp] theorem selEdge_xchg : (selEdge level s).xchg =
    if level then { s.xchg with recvCount := 0, sendCount := 0 } else s.xchg := by cases level <;> rfl
@[simp] theorem selEdge_aggr : (selEdge level s).aggr = s.aggr := by cases level <;> rfl
@[simp] theorem selEdge_kbd : (selEdge level s).kbd = s.kbd := by cases level <;> rfl
@[simp] theorem selEdge_trace : (selEdge level s).trace =
    s.trace ++ [if level then .selected else .deselected] := by cases level <;> rfl
@[simp] theorem selEdge_clientState : (selEdge level s).clientState = s.clientState := by cases level <;> rfl
@[simp] theorem selEdge_draws : (selEdge level s).draws = s.draws := by cases level <;> rfl
@[simp] theorem selEdge_pending : (selEdge level s).pending = s.pending := by cases level <;> rfl

@[simp] theorem byteEnd_cfg : (byteEnd level s).cfg = s.cfg := rfl
@[simp] theorem byteEnd_line : (byteEnd level s).line = { s.line with clk := level, miso := false } := rfl
@[simp] theorem byteEnd_xchg : (byteEnd level s).xchg = ⟨receivedByte level s, 0x00, 0, 0⟩ := rfl
@[simp] theorem byteEnd_aggr : (byteEnd level s).aggr = s.aggr := rfl
@[simp] theorem byteEnd_kbd : (byteEnd level s).kbd = s.kbd := rfl
@[simp] theorem byteEnd_trace :
    (byteEnd level s).trace = s.trace ++ [.byteExchanged (receivedByte level s)] := rfl
@[simp] theorem byteEnd_clientState : (byteEnd level s).clientState = s.clientState := rfl
@[simp] theorem byteEnd_draws : (byteEnd level s).draws = s.draws := rfl
@[simp] theorem byteEnd_pending : (byteEnd level s).pending = s.pending := rfl

end

/-! ## SEL -/

theorem exec_sel_of_eq {s : State} {level : Level} (h : level = s.line.sel) : exec (.sel level) s = .next s :=
  if_pos h

theorem exec_sel_of_ne {s : State} {level : Level} (h : level ≠ s.line.sel) :
    exec (.sel level) s = if level then onSelect (selEdge level s) else onDeselect (selEdge level s) := by
  refine (if_neg h).trans ?_
  cases level <;> rfl

/-! ## CLK -/

theorem qualifies_of_endsByte {s : State} {level : Level} (h : endsByte level s = true) : qualifies level s = true :=
  (Bool.and_eq_true_iff.1 h).1

theorem recvShift_bitAction (level : Level) (s : State) :
    (bitAction level (setClk level s)).xchg.recvShift = receivedByte level s := by
  unfold receivedByte
  cases hrole : sampleRole s.cfg.spi level with
  | true => simp [bitAction_of_sample (s := setClk level s) hrole]
  | false => simp [bitAction_of_shift (s := setClk level s) hrole, shift_xchg]

/-- The reset of the byte's end overwrites all that the last edge's SAMPLE or SHIFT did but the received byte. -/
theorem endByte_bitAction (level : Level) (s : State) :
    endByte (bitAction level (setClk level s)) = byteEnd level s := by
  unfold byteEnd receivedByte
  cases hrole : sampleRole s.cfg.spi level with
  | true =>
    rw [bitAction_of_sample (s := setClk level s) hrole]
    simp [endByte, emit, armByte, setMiso, setSendShift, setSendCount, setRecvCount, sample, setRecvShift, setClk]
  | false =>
    rw [bitAction_of_shift (s := setClk level s) hrole]
    simp [endByte, emit, armByte, setMiso, setSendShift, setSendCount, setRecvCount, shift, setClk]

theorem exec_clk_of_not_qualifies {s : State} {level : Level} (hq : qualifies level s = false) :
    exec (.clk level) s = .next s :=
  clkWithoutEdgeChangesNothing s level hq

theorem exec_clk_of_not_endsByte {s : State} {level : Level} (hq : qualifies level s = true)
    (he : endsByte level s = false) : exec (.clk level) s = .next (bitAction level (setClk level s)) :=
  (exec_clk_of_bitAction_eq hq rfl).1 he

theorem exec_clk_of_endsByte {s : State} {level : Level} (he : endsByte level s = true) :
    exec (.clk level) s =
      andThen (onByteExchanged (receivedByte level s) (byteEnd level s)) fun r => .next (applyReply r) := by
  rw [(exec_clk_of_bitAction_eq (qualifies_of_endsByte he) rfl).2 he, complete, recvShift_bitAction,
    endByte_bitAction]

/-! ## Every handler call -/

/-- A handler call with what the transceiver does with its result (41_bit_engine.md R143, R144). -/
def runHandler : HandlerCall → State → Host.Outcome State Fault Refusal
  | .onSelect, s => onSelect s
  | .onDeselect, s => onDeselect s
  | .onByteExchanged rx, s => andThen (onByteExchanged rx s) fun r => .next (applyReply r)

/-- The state operation i calls its handler in, where it calls one. -/
def atHandler : Instr → State → State
  | .sel level, s => selEdge level s
  | .clk level, s => byteEnd level s
  | _, s => s

/-- An operation that calls a handler is that call (40_line_ops.md R100, 41_bit_engine.md R142). -/
theorem exec_of_handlerCalled {i : Instr} {s : State} {call : HandlerCall} (h : handlerCalled i s = some call) :
    exec i s = runHandler call (atHandler i s) := by
  cases i <;> simp only [handlerCalled, reduceCtorEq] at h
  case sel level =>
    split at h
    · cases h
    · next hne =>
      rw [exec_sel_of_ne hne]
      cases level <;> cases h <;> rfl
  case clk level =>
    split at h
    · next he => cases h; exact exec_clk_of_endsByte he
    · cases h

section
variable (i : Instr) (s : State)

@[simp] theorem atHandler_cfg : (atHandler i s).cfg = s.cfg := by cases i <;> simp [atHandler]
@[simp] theorem atHandler_aggr : (atHandler i s).aggr = s.aggr := by cases i <;> simp [atHandler]
@[simp] theorem atHandler_kbd : (atHandler i s).kbd = s.kbd := by cases i <;> simp [atHandler]
@[simp] theorem atHandler_clientState : (atHandler i s).clientState = s.clientState := by
  cases i <;> simp [atHandler]
@[simp] theorem atHandler_draws : (atHandler i s).draws = s.draws := by cases i <;> simp [atHandler]
@[simp] theorem atHandler_pending : (atHandler i s).pending = s.pending := by cases i <;> simp [atHandler]

end

theorem runHandler_null {s : State} (hc : s.cfg.spi.client = .null) (call : HandlerCall) :
    runHandler call s = .next s := by
  cases call <;> simp [runHandler, onSelect, onDeselect, onByteExchanged, hc, applyReply]

/-- What is done with a table client's result: a reply counts at the end of a byte only (log 7). -/
def replyTaken : HandlerCall → State × Option Byte → State
  | .onByteExchanged _, r => applyReply r
  | .onSelect, r | .onDeselect, r => r.1

theorem runHandler_scripted {s : State} {p : ClientScript} (hc : s.cfg.spi.client = .scripted p) (call : HandlerCall) :
    runHandler call s = andThen (scriptedCall p call s) fun r => .next (replyTaken call r) := by
  cases call <;> simp [runHandler, onSelect, onDeselect, onByteExchanged, hc, replyTaken]

/-! ## The statements -/

/-- Settles O14: SEL at an edge is `selEdge` and the handler, spelt out for the null and the keyboard client. -/
theorem selWritesSelectLine : Obligations.SelWritesSelectLine := by
  refine fun s level => ⟨exec_sel_of_eq, fun hne => ?_⟩
  have hexec := exec_sel_of_ne hne
  refine ⟨?_, fun hc => ?_, fun hc => ?_⟩
  · exact hexec
  · rw [hexec]
    cases level <;> simp [onSelect, onDeselect, hc] <;> rfl
  · rw [hexec]
    cases level <;> simp [onSelect, onDeselect, hc] <;> rfl

/-- Settles O26: `byteEnd`, then the client's answer over it. -/
theorem clkEndsByte : Obligations.ClkEndsByte := by
  refine fun s level he => ?_
  have hexec := exec_clk_of_endsByte he
  refine ⟨fun hc => ?_, fun u hu => ?_, fun u b hu => ?_⟩
  · rw [hexec, onByteExchanged, byteEnd_cfg, hc]
    rfl
  · rw [hexec, show onByteExchanged (receivedByte level s) (byteEnd level s) = .next (u, none) from hu]
    rfl
  · rw [hexec, show onByteExchanged (receivedByte level s) (byteEnd level s) = .next (u, some b) from hu]
    rfl

/-- SHIFT with `CPHA = 1` drives the head of the byte as it was (41_bit_engine.md R140). -/
theorem shift_of_cpha_one {s : State} (hpha : cpha s.cfg.spi = true) :
    shift s = { s with
      line := { s.line with miso := head s.cfg.spi.bitOrder s.xchg.sendShift }
      xchg := { s.xchg with
        sendShift := adv s.cfg.spi.bitOrder s.xchg.sendShift
        sendCount := s.xchg.sendCount + 1 } } := by
  simp only [shift, hpha]
  rfl

/-- Settles O25: a shift edge is SHIFT at the stored level, and with `CPHA = 1` it drives before it advances. -/
theorem clkShiftEdgePhaseOne : Obligations.ClkShiftEdgePhaseOne := fun s level hq hrole hpha =>
  exec_clk_of_bitAction_eq hq ((bitAction_of_shift (s := setClk level s) hrole).trans (shift_of_cpha_one hpha))

end Sys2Proof.Machine
end

section
/-! All that an operation can do, once: `Effect` for the operations, `HandlerEffect` for the handler calls. What holds
of every operation is proved by cases on them. -/
namespace Sys2Proof.Machine

/-! ## Handler calls -/

/-- What a handler call that answers leaves, client by client (41_bit_engine.md R143 to R145; 42_keyboard_client.md R172
to R174). -/
inductive HandlerEffect (s : State) : HandlerCall → State → Prop
  | null {call : HandlerCall} (hc : s.cfg.spi.client = .null) : HandlerEffect s call s
  | keyboardSelect (hc : s.cfg.spi.client = .keyboard) :
      HandlerEffect s .onSelect (setKbd { s.kbd with kstate := .newlySelected } s)
  | keyboardDeselect (hc : s.cfg.spi.client = .keyboard) :
      HandlerEffect s .onDeselect (setKbd { s.kbd with kstate := .notSelected } s)
  | keyboardByte {rx b : Byte} {u : State} (hc : s.cfg.spi.client = .keyboard)
      (hbyte : keyboardByte rx s = .next (u, b)) : HandlerEffect s (.onByteExchanged rx) (armByte b u)
  | scripted {p : ClientScript} {call : HandlerCall} {u : State} {r : Option Byte}
      (hc : s.cfg.spi.client = .scripted p) (hcall : scriptedCall p call s = .next (u, r)) :
      HandlerEffect s call (replyTaken call (u, r))

theorem handlerEffect_of_runHandler {call : HandlerCall} {s t : State} (h : runHandler call s = .next t) :
    HandlerEffect s call t := by
  cases hc : s.cfg.spi.client with
  | null => rw [runHandler_null hc] at h; cases h; exact .null hc
  | keyboard =>
    cases call with
    | onSelect => simp only [runHandler, onSelect, hc] at h; cases h; exact .keyboardSelect hc
    | onDeselect => simp only [runHandler, onDeselect, hc] at h; cases h; exact .keyboardDeselect hc
    | onByteExchanged rx =>
      simp only [runHandler, onByteExchanged, hc] at h
      obtain ⟨⟨u, r⟩, hbyte, hreply⟩ := andThen_eq_next.1 h
      obtain ⟨⟨v, b⟩, hkey, hr⟩ := andThen_eq_next.1 hbyte
      cases hr
      cases hreply
      exact .keyboardByte hc hkey
  | scripted p =>
    rw [runHandler_scripted hc] at h
    obtain ⟨⟨u, r⟩, hcall, ht⟩ := andThen_eq_next.1 h
    cases ht
    exact .scripted hc hcall

/-- What no handler call can change: it reaches neither `clk`, `sel`, `mosi` nor the counts (41_bit_engine.md R143,
R144). -/
structure HandlerFrame (s t : State) : Prop where
  cfg : t.cfg = s.cfg
  line : t.line = { s.line with miso := t.line.miso }
  xchg : t.xchg = { s.xchg with sendShift := t.xchg.sendShift }
  pending : t.pending = s.pending

theorem HandlerFrame.of_same {s t : State} (h : SameBlock s t) : HandlerFrame s t :=
  ⟨h.cfg, by rw [h.line], by rw [h.xchg], h.pending⟩

theorem HandlerFrame.of_armByte {s t : State} (h : SameBlock s t) (b : Byte) : HandlerFrame s (armByte b t) :=
  ⟨h.cfg, by rw [armByte_line, h.line], by rw [armByte_xchg, h.xchg], h.pending⟩

theorem HandlerFrame.of_replyTaken {s u : State} (h : SameBlock s u) (call : HandlerCall) (r : Option Byte) :
    HandlerFrame s (replyTaken call (u, r)) := by
  cases call with
  | onSelect | onDeselect => exact .of_same h
  | onByteExchanged rx =>
    cases r with
    | none => exact .of_same h
    | some b => exact .of_armByte h b

theorem HandlerEffect.frame {s t : State} {call : HandlerCall} (h : HandlerEffect s call t) : HandlerFrame s t := by
  cases h with
  | null => exact .of_same .rfl
  | keyboardSelect | keyboardDeselect => exact ⟨rfl, rfl, rfl, rfl⟩
  | keyboardByte hc hbyte => exact .of_armByte (keyboardByte_same hbyte) _
  | scripted hc hcall => exact .of_replyTaken (scriptedCall_same hcall) _ _

/-- The handlers of a select edge cannot reply, so they leave `send_shift` and `miso` too (41_bit_engine.md R143). -/
theorem HandlerEffect.same_of_select {s t : State} {call : HandlerCall} (h : HandlerEffect s call t)
    (hcall : ∀ rx, call ≠ .onByteExchanged rx) : SameBlock s t := by
  cases h with
  | null => exact .rfl
  | keyboardSelect | keyboardDeselect => exact ⟨rfl, rfl, rfl, rfl⟩
  | keyboardByte => exact absurd rfl (hcall _)
  | scripted hc hrun =>
    cases call with
    | onSelect | onDeselect => exact scriptedCall_same hrun
    | onByteExchanged rx => exact absurd rfl (hcall rx)

/-- Whatever every part of a handler respects, and the arming of a reply, a handler call respects. -/
theorem HandlerEffect.of_handlerStep {P : State → State → Prop} (hP : HandlerStep P)
    (harm : ∀ (s : State) (b : Byte), P s (armByte b s)) {s t : State} {call : HandlerCall}
    (h : HandlerEffect s call t) : P s t := by
  cases h with
  | null => exact hP.same s
  | keyboardSelect | keyboardDeselect => exact hP.kbd s _
  | keyboardByte hc hbyte => exact hP.trans (hP.keyboardByte hbyte) (harm _ _)
  | @scripted p call u r hc hcall =>
    have hrun := hP.scriptedCall hcall
    cases call with
    | onSelect | onDeselect => exact hrun
    | onByteExchanged rx =>
      cases r with
      | none => exact hrun
      | some b => exact hP.trans hrun (harm u b)

/-! ## Operations -/

/-- What an operation that answers leaves (40_line_ops.md, 41_bit_engine.md R141, 43_interrupt_aggregator.md R202, R205;
42_keyboard_client.md R183; 70_reset_and_hazards.md R260). `held` is an operation that is discarded or finds its level
already there. -/
inductive Effect (s : State) : Instr → State → Prop
  | handler {i : Instr} {call : HandlerCall} {t : State} (hcall : handlerCalled i s = some call)
      (heff : HandlerEffect (atHandler i s) call t) : Effect s i t
  | held {i : Instr} (hnone : handlerCalled i s = none) : Effect s i s
  | bit {level : Level} (hq : qualifies level s = true) (he : endsByte level s = false) :
      Effect s (.clk level) (bitAction level (setClk level s))
  | mosi {level : Level} (hsel : s.line.sel = true) : Effect s (.mosi level) (setMosi level s)
  | miso : Effect s .miso (emit (.misoRead s.line.miso) s)
  | arm (b : Byte) : Effect s (.arm b) (armByte b s)
  | src {i : SrcIdx} {raw : Level} {t : State} (hsrc : setSource i raw s = .next t) : Effect s (.src i raw) t
  | irq : Effect s .irq (emit (.irqRead s.aggr.agg) s)
  | kbd {b : Byte} {t : State} (hc : s.cfg.spi.client = .keyboard)
      (hirq : setKirq true (setKbd { s.kbd with scancodeBuffer := b, bufferFull := true } s) = .next t) :
      Effect s (.kbd b) t
  | rst : Effect s .rst (resetBlock s)

theorem effect_of_exec {i : Instr} {s t : State} (h : exec i s = .next t) : Effect s i t := by
  cases hcall : handlerCalled i s with
  | some call =>
    rw [exec_of_handlerCalled hcall] at h
    exact .handler hcall (handlerEffect_of_runHandler h)
  | none =>
    cases i with
    | sel level =>
      have hsel : level = s.line.sel := by simpa [handlerCalled] using hcall
      rw [exec_sel_of_eq hsel] at h
      cases h; exact .held hcall
    | clk level =>
      have he : endsByte level s = false := by simpa [handlerCalled] using hcall
      cases hq : qualifies level s with
      | false => rw [exec_clk_of_not_qualifies hq] at h; cases h; exact .held hcall
      | true => rw [exec_clk_of_not_endsByte hq he] at h; cases h; exact .bit hq he
    | mosi level =>
      cases hsel : s.line.sel with
      | false => rw [exec_mosi_of_deselected hsel] at h; cases h; exact .held hcall
      | true => rw [exec_mosi_of_selected hsel] at h; cases h; exact .mosi hsel
    | miso => cases h; exact .miso
    | arm b => cases h; exact .arm b
    | src j raw => exact .src h
    | irq => cases h; exact .irq
    | kbd b =>
      obtain ⟨hc, hirq⟩ := execKbd_eq_next h
      exact .kbd hc hirq
    | rst => cases h; exact .rst

theorem Effect.cfg {s t : State} {i : Instr} (h : Effect s i t) : t.cfg = s.cfg := by
  cases h with
  | handler hcall heff => exact heff.frame.cfg.trans (atHandler_cfg i s)
  | held | mosi | miso | arm | irq | rst => rfl
  | bit => simp
  | src hsrc => exact (setSource_same hsrc).cfg
  | kbd hc hirq => exact (setKirq_same hirq).cfg

/-- Settles O11. -/
theorem configurationNeverChanges : Obligations.ConfigurationNeverChanges := fun _ _ _ h => (effect_of_exec h).cfg

end Sys2Proof.Machine
end

section
/-! Which operations complete, and what else can happen: a fault comes from a forbidden call in a table client's
handler, a refusal there from an input that does not exist (41_bit_engine.md R146; 60_exceptions.md R231; log 8). -/
namespace Sys2Proof.Machine

/-! ## Completion -/

theorem handlerReady_atHandler (call : HandlerCall) (i : Instr) (s : State) :
    handlerReady call (atHandler i s) = handlerReady call s := by
  simp [handlerReady]

theorem runHandler_completes {call : HandlerCall} {s : State} (h : handlerReady call s = true) :
    ∃ t, runHandler call s = .next t := by
  cases call with
  | onSelect => exact onSelect_completes h
  | onDeselect => exact onDeselect_completes h
  | onByteExchanged rx =>
    obtain ⟨t, r, ht⟩ := onByteExchanged_completes h
    exact ⟨applyReply (t, r), by simp [runHandler, ht]⟩

/-- KBD with its client attached, on an input that exists (42_keyboard_client.md R180, R183). -/
theorem exec_kbd_eq_recompute {s : State} (hc : s.cfg.spi.client = .keyboard)
    (hi : hasSource s.cfg.agg s.cfg.spi.kbdSrc = true) (b : Byte) :
    exec (.kbd b) s = .next (recompute (setFlag s.cfg.spi.kbdSrc true
      (setKbd { s.kbd with scancodeBuffer := b, bufferFull := true, kirq := true } s))) := by
  rw [exec_kbd_of_keyboard hc]
  exact setKirq_eq_next.2 ⟨hi, rfl⟩

/-- An operation the block has completes where it calls no handler. -/
theorem exec_completes_of_no_handler {i : Instr} {s : State} (hwf : i.wf s.cfg = true)
    (hkbd : s.cfg.spi.client = .keyboard → hasSource s.cfg.agg s.cfg.spi.kbdSrc = true)
    (hnone : handlerCalled i s = none) : ∃ t, exec i s = .next t := by
  cases i with
  | sel level => exact ⟨s, exec_sel_of_eq (by simpa [handlerCalled] using hnone)⟩
  | clk level =>
    cases hq : qualifies level s with
    | false => exact ⟨s, exec_clk_of_not_qualifies hq⟩
    | true => exact ⟨_, exec_clk_of_not_endsByte hq (by simpa [handlerCalled] using hnone)⟩
  | mosi level =>
    cases hsel : s.line.sel with
    | false => exact ⟨s, exec_mosi_of_deselected hsel level⟩
    | true => exact ⟨_, exec_mosi_of_selected hsel level⟩
  | miso => exact ⟨_, exec_miso s⟩
  | arm b => exact ⟨_, exec_arm b s⟩
  | src j raw => exact ⟨_, exec_src_eq_recompute (of_decide_eq_true hwf) raw⟩
  | irq => exact ⟨_, exec_irq s⟩
  | kbd b =>
    have hc : s.cfg.spi.client = .keyboard := of_decide_eq_true hwf
    exact ⟨_, exec_kbd_eq_recompute hc (hkbd hc) b⟩
  | rst => exact ⟨_, exec_rst s⟩

theorem exec_completes {i : Instr} {s : State} (hwf : i.wf s.cfg = true) (hready : clientReady i s = true) :
    ∃ t, exec i s = .next t := by
  obtain ⟨hkbd, hhandler⟩ := Bool.and_eq_true_iff.1 hready
  cases hcall : handlerCalled i s with
  | none => exact exec_completes_of_no_handler hwf (fun hc => by simpa [hc] using hkbd) hcall
  | some call =>
    rw [exec_of_handlerCalled hcall]
    exact runHandler_completes (by simpa [hcall, handlerReady_atHandler] using hhandler)

/-! ## Faults -/

theorem setSource_ne_fault (i : SrcIdx) (raw : Level) (s : State) (r : Fault) : setSource i raw s ≠ .fault r := by
  unfold setSource; split <;> simp

theorem setKirq_ne_fault (v : Level) (s : State) (r : Fault) : setKirq v s ≠ .fault r :=
  setSource_ne_fault _ _ _ _

theorem clearBuffer_ne_fault (s : State) (r : Fault) : clearBuffer s ≠ .fault r :=
  setKirq_ne_fault _ _ _

theorem keyboardByte_ne_fault (rx : Byte) (s : State) (r : Fault) : keyboardByte rx s ≠ .fault r := by
  unfold keyboardByte keyboardControl controlCode keyboardRead
  split
  · split
    · split
      · simp [andThen_eq_fault, clearBuffer_ne_fault]
      · split <;> simp
    · simp [andThen_eq_fault, clearBuffer_ne_fault]
  all_goals simp

theorem reenter_mem_of_runActions_fault {as : List ClientAction} {s : State} {r : Fault}
    (h : runActions as s = .fault r) : ∃ what, .reenter what ∈ as := by
  induction as generalizing s with
  | nil => cases h
  | cons a as ih =>
    cases a with
    | reenter what => exact ⟨what, List.mem_cons_self⟩
    | setSource i raw =>
      obtain hf | ⟨t, -, hrest⟩ := andThen_eq_fault.1 h
      · exact absurd hf (setSource_ne_fault _ _ _ _)
      · obtain ⟨what, hmem⟩ := ih hrest
        exact ⟨what, List.mem_cons_of_mem _ hmem⟩

/-- A handler call faults in a table client's handler only, by a forbidden call (41_bit_engine.md R146). -/
theorem reenter_of_runHandler_fault {call : HandlerCall} {s : State} {r : Fault} (h : runHandler call s = .fault r) :
    ∃ p what, s.cfg.spi.client = .scripted p ∧ .reenter what ∈ (scriptAnswer p s.clientState call).1.actions := by
  cases hc : s.cfg.spi.client with
  | null => rw [runHandler_null hc] at h; cases h
  | keyboard =>
    cases call with
    | onSelect => simp [runHandler, onSelect, hc] at h
    | onDeselect => simp [runHandler, onDeselect, hc] at h
    | onByteExchanged rx => simp [runHandler, onByteExchanged, hc, andThen_eq_fault, keyboardByte_ne_fault] at h
  | scripted p =>
    simp only [runHandler_scripted hc, scriptedCall, andThen_eq_fault, reduceCtorEq, and_false, exists_false,
      or_false] at h
    obtain ⟨what, hmem⟩ := reenter_mem_of_runActions_fault h
    exact ⟨p, what, rfl, hmem⟩

theorem exec_ne_fault_of_no_handler {i : Instr} {s : State} (hnone : handlerCalled i s = none) (r : Fault) :
    exec i s ≠ .fault r := by
  cases i with
  | sel level => simp [exec_sel_of_eq (show level = s.line.sel by simpa [handlerCalled] using hnone)]
  | clk level =>
    cases hq : qualifies level s with
    | false => simp [exec_clk_of_not_qualifies hq]
    | true => simp [exec_clk_of_not_endsByte hq (by simpa [handlerCalled] using hnone)]
  | mosi level =>
    cases hsel : s.line.sel with
    | false => simp [exec_mosi_of_deselected hsel]
    | true => simp [exec_mosi_of_selected hsel]
  | miso | arm _ | irq | rst => exact nofun
  | src j raw => exact setSource_ne_fault _ _ _ _
  | kbd b =>
    by_cases hc : s.cfg.spi.client = .keyboard
    · rw [exec_kbd_of_keyboard hc]; exact setKirq_ne_fault _ _ _
    · rw [exec_kbd_of_not_keyboard hc]; exact nofun

/-- Settles O17: with no handler nothing faults, and a handler faults by a forbidden call only. -/
theorem faultsOnlyByReentry : Obligations.FaultsOnlyByReentry := by
  intro i s r h
  cases hcall : handlerCalled i s with
  | none => exact absurd h (exec_ne_fault_of_no_handler hcall r)
  | some call =>
    rw [exec_of_handlerCalled hcall] at h
    obtain ⟨p, what, hc, hmem⟩ := reenter_of_runHandler_fault h
    rw [atHandler_cfg] at hc
    rw [atHandler_clientState] at hmem
    exact ⟨p, call, what, hc, rfl, hmem⟩

/-- Settles O12: completion by operation and handler; a fault would need a table client. -/
theorem everyOperationCompletes : Obligations.EveryOperationCompletes := by
  refine fun i s hwf => ⟨exec_completes hwf, fun hc r hfault => ?_⟩
  obtain ⟨p, -, -, hp, -, -⟩ := faultsOnlyByReentry i s r hfault
  exact hc p hp

/-! ## A handler that stops -/

/-- Allowed actions run, and what follows them runs from where they end. -/
theorem runActions_after_allowed {before : List ClientAction} {s : State}
    (h : before.all (ClientAction.allowed s.cfg.agg) = true) :
    ∃ t, t.cfg = s.cfg ∧ ∀ rest, runActions (before ++ rest) s = runActions rest t := by
  obtain ⟨t, ht⟩ := runActions_completes h
  exact ⟨t, (runActions_same ht).cfg, fun rest => by rw [runActions_append, ht, andThen_next]⟩

/-- Settles O16: the handler's actions run up to the one that stops it. -/
theorem reentrantHandlerFaults : Obligations.ReentrantHandlerFaults := by
  intro i s p call before after a hc hcall hactions hbefore
  obtain ⟨t, htc, hrun⟩ := runActions_after_allowed (before := before)
    (s := setClientState (scriptAnswer p s.clientState call).2 (atHandler i s)) (by simpa using hbefore)
  have hexec : exec i s = andThen (andThen (runActions (a :: after) t) fun u =>
      .next (u, (scriptAnswer p s.clientState call).1.reply)) fun r => .next (replyTaken call r) := by
    rw [exec_of_handlerCalled hcall, runHandler_scripted (by simpa using hc), scriptedCall, atHandler_clientState,
      hactions, hrun]
  refine ⟨fun what ha => ?_, fun j raw ha hj => ?_⟩
  · subst ha; exact hexec
  · subst ha
    have hnot : hasSource t.cfg.agg j = false := by simpa [htc, hasSource_false_iff] using hj
    rw [hexec, runActions, setSource_of_not_has hnot]
    rfl

end Sys2Proof.Machine
end

section
/-! The invariants between operations: each holds at reset, and every step keeps each of them, by cases on the step's
`Effect` (41_bit_engine.md R147, 43_interrupt_aggregator.md R209, 42_keyboard_client.md R171 to R174). -/
namespace Sys2Proof.Machine

/-- A step keeps what the host's word list does not matter to and every operation keeps. -/
theorem step_keeps {P : State → Prop} (hpending : ∀ {s : State} (ws : List Word), P s → P (setPending ws s))
    (heffect : ∀ {i : Instr} {s t : State}, Effect s i t → P s → P t) {s t : State} (hs : P s)
    (h : step s = .next t) : P t := by
  obtain ⟨-, rfl⟩ | ⟨w, ws, i, -, -, hexec⟩ := step_eq_next h
  · exact hs
  · exact heffect (effect_of_exec hexec) (hpending ws hs)

/-! ## Which handler is called -/

theorem eq_sel_of_onSelect {i : Instr} {s : State} (h : handlerCalled i s = some .onSelect) : i = .sel true := by
  cases i <;> grind [handlerCalled]

theorem eq_sel_of_onDeselect {i : Instr} {s : State} (h : handlerCalled i s = some .onDeselect) : i = .sel false := by
  cases i <;> grind [handlerCalled]

theorem eq_clk_of_onByteExchanged {i : Instr} {s : State} {rx : Byte}
    (h : handlerCalled i s = some (.onByteExchanged rx)) :
    ∃ level, i = .clk level ∧ endsByte level s = true ∧ rx = receivedByte level s := by
  cases i <;> grind [handlerCalled]

/-- A handler is called by SEL, or by CLK at the end of a byte. -/
theorem sel_or_clk_of_handlerCalled {i : Instr} {s : State} {call : HandlerCall} (h : handlerCalled i s = some call) :
    (∃ level, i = .sel level ∧ ∀ rx, call ≠ .onByteExchanged rx) ∨
    ∃ level, i = .clk level ∧ endsByte level s = true := by
  cases call with
  | onSelect => exact .inl ⟨_, eq_sel_of_onSelect h, nofun⟩
  | onDeselect => exact .inl ⟨_, eq_sel_of_onDeselect h, nofun⟩
  | onByteExchanged rx =>
    obtain ⟨level, hi, he, -⟩ := eq_clk_of_onByteExchanged h
    exact .inr ⟨level, hi, he⟩

/-! ## The counts -/

theorem CountsInv.congr {s t : State} (hcfg : t.cfg = s.cfg) (hclk : t.line.clk = s.line.clk)
    (hrecv : t.xchg.recvCount = s.xchg.recvCount) (hsend : t.xchg.sendCount = s.xchg.sendCount) (h : CountsInv s) :
    CountsInv t := by
  rwa [CountsInv, hcfg, hclk, hrecv, hsend]

theorem CountsInv.of_zero {s : State} (hrecv : s.xchg.recvCount = 0) (hsend : s.xchg.sendCount = 0) : CountsInv s :=
  .inl ⟨hrecv.trans hsend.symm, by omega⟩

theorem CountsInv.of_frame {s t : State} (hframe : HandlerFrame s t) (h : CountsInv s) : CountsInv t :=
  h.congr hframe.cfg (by rw [hframe.line]) (by rw [hframe.xchg]) (by rw [hframe.xchg])

theorem selected_of_qualifies {s : State} {level : Level} (hq : qualifies level s = true) : s.line.sel = true :=
  (Bool.and_eq_true_iff.1 hq).1

/-- A qualifying edge has the other role than the edge before it (41_bit_engine.md R133). -/
theorem isSampleEdge_stored {s : State} {level : Level} (hq : qualifies level s = true) :
    isSampleEdge s.cfg.spi s.line.clk = !sampleRole s.cfg.spi level := by
  have hclk : s.line.clk = !level := by
    have hne : level ≠ s.line.clk := by simpa using (Bool.and_eq_true_iff.1 hq).2
    cases level <;> cases h : s.line.clk <;> simp_all
  rw [hclk, isSampleEdge_not, isSampleEdge_eq_sampleRole]

/-- The edge counts on the side that is not ahead, which is therefore below 8 (41_bit_engine.md R147). -/
theorem CountsInv.lt_of_qualifies {s : State} {level : Level} (h : CountsInv s) (hq : qualifies level s = true) :
    if sampleRole s.cfg.spi level then s.xchg.recvCount < 8 ∧ s.xchg.recvCount ≤ s.xchg.sendCount
    else s.xchg.sendCount < 8 ∧ s.xchg.sendCount ≤ s.xchg.recvCount := by
  rw [CountsInv, isSampleEdge_stored hq] at h
  cases hrole : sampleRole s.cfg.spi level <;> simp [hrole] at h ⊢ <;> omega

theorem CountsInv.bit {s : State} {level : Level} (h : CountsInv s) (hq : qualifies level s = true)
    (he : endsByte level s = false) : CountsInv (bitAction level (setClk level s)) := by
  have hlt := h.lt_of_qualifies hq
  simp only [endsByte, hq, Bool.true_and] at he
  cases hrole : sampleRole s.cfg.spi level with
  | true =>
    simp only [hrole, if_true, decide_eq_false_iff_not] at hlt he
    rw [bitAction_of_sample (s := setClk level s) hrole]
    simp only [CountsInv, sample_xchg, sample_cfg, sample_line, setClk_xchg, setClk_cfg, setClk_line,
      isSampleEdge_eq_sampleRole, hrole, and_true, reduceCtorEq, and_false, or_false] at h ⊢
    omega
  | false =>
    simp only [hrole, Bool.false_eq_true, if_false, decide_eq_false_iff_not] at hlt he
    rw [bitAction_of_shift (s := setClk level s) hrole]
    simp only [CountsInv, shift_xchg, shift_cfg, shift_line, setClk_xchg, setClk_cfg, setClk_line,
      isSampleEdge_eq_sampleRole, hrole, and_true, reduceCtorEq, and_false, false_or] at h ⊢
    omega

theorem CountsInv.of_atHandler {i : Instr} {s : State} {call : HandlerCall} (h : CountsInv s)
    (hcall : handlerCalled i s = some call) : CountsInv (atHandler i s) := by
  obtain ⟨level, rfl, -⟩ | ⟨level, rfl, -⟩ := sel_or_clk_of_handlerCalled hcall
  · cases level with
    | true => exact .of_zero rfl rfl
    | false => exact h
  · exact .of_zero rfl rfl

theorem CountsInv.effect {i : Instr} {s t : State} (h : Effect s i t) (hs : CountsInv s) : CountsInv t := by
  cases h with
  | handler hcall heff => exact (hs.of_atHandler hcall).of_frame heff.frame
  | held | mosi | miso | arm | irq => exact hs
  | bit hq he => exact hs.bit hq he
  | src hsrc => exact hs.of_frame (.of_same (setSource_same hsrc))
  | kbd hc hirq => exact CountsInv.of_frame (.of_same (setKirq_same hirq)) hs
  | rst => exact .of_zero rfl rfl

/-- Settles O47: the invariant's step, and the bounds it gives. -/
theorem countersStayInStep : Obligations.CountersStayInStep := by
  refine ⟨fun s t hs h => step_keeps (fun _ => id) CountsInv.effect hs h, fun s h => ?_⟩
  have hbounds := h
  unfold CountsInv at hbounds
  refine ⟨by omega, by omega, by omega, by omega, by omega, fun level hq => ?_⟩
  have hlt := h.lt_of_qualifies hq
  split at hlt <;> simp [*]

/-! ## The aggregator -/

theorem AggregatorInv.effect {i : Instr} {s t : State} (h : Effect s i t) (hs : AggregatorInv s) :
    AggregatorInv t := by
  cases h with
  | handler hcall heff =>
    refine heff.of_handlerStep handlers_keep_aggregatorInv (fun _ _ => id) ?_
    simpa [AggregatorInv] using hs
  | held | mosi | miso | arm | irq => exact hs
  | bit => simpa [AggregatorInv] using hs
  | src hsrc => exact setSource_keeps_aggregatorInv hsrc hs
  | kbd hc hirq => exact handlers_keep_aggregatorInv.setKirq hirq hs
  | rst => exact ⟨by simp [wiredOr], by simp⟩

/-- Settles O48. -/
theorem aggregateStaysTheOrOfTheFlags : Obligations.AggregateStaysTheOrOfTheFlags := fun _ _ hs h =>
  step_keeps (fun _ => id) AggregatorInv.effect hs h

/-! ## The keyboard client -/

theorem KeyboardInv.congr {s t : State} (hcfg : t.cfg = s.cfg) (hsel : t.line.sel = s.line.sel) (hkbd : t.kbd = s.kbd)
    (h : KeyboardInv s) : KeyboardInv t := by
  rwa [KeyboardInv, hcfg, hsel, hkbd]

/-- Where the keyboard is not attached, it is at rest whatever `sel` is. -/
theorem KeyboardInv.of_absent {s t : State} (hcfg : t.cfg = s.cfg) (hkbd : t.kbd = s.kbd)
    (hc : s.cfg.spi.client ≠ .keyboard) (h : KeyboardInv s) : KeyboardInv t := by
  obtain ⟨hirq, hbuf, -, habsent⟩ := h
  rw [KeyboardInv, hcfg, hkbd]
  exact ⟨hirq, hbuf, fun hk => absurd hk hc, habsent⟩

/-- Where it is attached, `kirq` is `buffer_full`, an empty buffer is 0x00 and `kstate` fits `sel`. -/
theorem KeyboardInv.of_attached {s : State} (hc : s.cfg.spi.client = .keyboard) (hirq : s.kbd.kirq = s.kbd.bufferFull)
    (hbuf : s.kbd.bufferFull = false → s.kbd.scancodeBuffer = 0x00)
    (hstate : s.kbd.kstate = .notSelected ↔ s.line.sel = false) : KeyboardInv s :=
  ⟨hirq, hbuf, fun _ => hstate, fun h => absurd hc h⟩

theorem clearBuffer_keeps_keyboardInv {s t : State} (h : clearBuffer s = .next t) (hc : s.cfg.spi.client = .keyboard)
    (hstate : s.kbd.kstate = .notSelected ↔ s.line.sel = false) : KeyboardInv t := by
  obtain ⟨-, rfl⟩ := clearBuffer_eq_next.1 h
  exact .of_attached (by simpa using hc) (by simp) (by simp) (by simpa using hstate)

/-- While selected, the byte handler leaves `kstate` in a selected state and the buffer coherent (42_keyboard_client.md
R174 to R179). -/
theorem keyboardByte_keeps_keyboardInv {rx b : Byte} {s t : State} (hc : s.cfg.spi.client = .keyboard)
    (hsel : s.line.sel = true) (h : keyboardByte rx s = .next (t, b)) (hs : KeyboardInv s) : KeyboardInv t := by
  have ⟨hirq, hbuf, _, _⟩ := hs
  rcases keyboardByte_cases h with ⟨-, -, -, h⟩ | ⟨-, -, -, -, h⟩ | ⟨-, -, -, -, rfl⟩ | ⟨-, -, -, -, -, rfl⟩ |
    ⟨-, -, rfl⟩ | ⟨-, -, rfl⟩
  · exact clearBuffer_keeps_keyboardInv h hc (by simp [hsel])
  · exact clearBuffer_keeps_keyboardInv h hc (by simp [hsel])
  · exact .of_attached hc hirq hbuf (by simp [hsel])
  · exact .of_attached hc hirq hbuf (by simp [hsel])
  · exact .of_attached hc hirq hbuf (by simp [hsel])
  · exact hs

theorem scriptedCall_keeps {p : ClientScript} {call : HandlerCall} {s t : State} {r : Option Byte}
    (h : scriptedCall p call s = .next (t, r)) : t.kbd = s.kbd ∧ t.draws = s.draws := by
  obtain ⟨-, hrun⟩ := scriptedCall_eq_next.1 h
  obtain ⟨hkbd, -, hdraws⟩ := runActions_keeps hrun
  exact ⟨hkbd, hdraws⟩

@[simp] theorem replyTaken_cfg (call : HandlerCall) (r : State × Option Byte) : (replyTaken call r).cfg = r.1.cfg := by
  cases call <;> simp [replyTaken]
@[simp] theorem replyTaken_aggr (call : HandlerCall) (r : State × Option Byte) :
    (replyTaken call r).aggr = r.1.aggr := by
  cases call <;> simp [replyTaken]
@[simp] theorem replyTaken_kbd (call : HandlerCall) (r : State × Option Byte) : (replyTaken call r).kbd = r.1.kbd := by
  cases call <;> simp [replyTaken]
@[simp] theorem replyTaken_trace (call : HandlerCall) (r : State × Option Byte) :
    (replyTaken call r).trace = r.1.trace := by
  cases call <;> simp [replyTaken]
@[simp] theorem replyTaken_clientState (call : HandlerCall) (r : State × Option Byte) :
    (replyTaken call r).clientState = r.1.clientState := by
  cases call <;> simp [replyTaken]
@[simp] theorem replyTaken_draws (call : HandlerCall) (r : State × Option Byte) :
    (replyTaken call r).draws = r.1.draws := by
  cases call <;> simp [replyTaken]
@[simp] theorem replyTaken_pending (call : HandlerCall) (r : State × Option Byte) :
    (replyTaken call r).pending = r.1.pending := by
  cases call <;> simp [replyTaken]

theorem KeyboardInv.handler {i : Instr} {s t : State} {call : HandlerCall} (hs : KeyboardInv s)
    (hcall : handlerCalled i s = some call) (heff : HandlerEffect (atHandler i s) call t) : KeyboardInv t := by
  cases heff with
  | null hc => exact hs.of_absent (atHandler_cfg i s) (atHandler_kbd i s) (by simp_all)
  | keyboardSelect hc =>
    obtain ⟨hirq, hbuf, -, -⟩ := hs
    obtain rfl := eq_sel_of_onSelect hcall
    exact .of_attached hc hirq hbuf (by simp [atHandler])
  | keyboardDeselect hc =>
    obtain ⟨hirq, hbuf, -, -⟩ := hs
    obtain rfl := eq_sel_of_onDeselect hcall
    exact .of_attached hc hirq hbuf (by simp [atHandler])
  | keyboardByte hc hbyte =>
    obtain ⟨level, rfl, he, -⟩ := eq_clk_of_onByteExchanged hcall
    have hsel := selected_of_qualifies (qualifies_of_endsByte he)
    exact (keyboardByte_keeps_keyboardInv hc hsel hbyte hs).congr rfl rfl rfl
  | scripted hc hrun =>
    obtain ⟨hkbd, -⟩ := scriptedCall_keeps hrun
    have hcfg := (scriptedCall_same hrun).cfg
    exact hs.of_absent (by simp [hcfg]) (by simp [hkbd]) (by simp_all)

theorem KeyboardInv.effect {i : Instr} {s t : State} (h : Effect s i t) (hs : KeyboardInv s) : KeyboardInv t := by
  cases h with
  | handler hcall heff => exact hs.handler hcall heff
  | held | mosi | miso | arm | irq => exact hs
  | bit => exact hs.congr (by simp) (by rw [bitAction_line]; rfl) (by simp)
  | src hsrc =>
    obtain ⟨-, rfl⟩ := setSource_eq_next.1 hsrc
    exact hs.congr (by simp) (by simp) (by simp)
  | kbd hc hirq =>
    obtain ⟨-, -, hstate, -⟩ := hs
    obtain ⟨-, rfl⟩ := setKirq_eq_next.1 hirq
    exact .of_attached (by simpa using hc) (by simp) (by simp) (by simpa using hstate hc)
  | rst => exact ⟨rfl, fun _ => rfl, fun _ => ⟨fun _ => rfl, fun _ => rfl⟩, fun _ => rfl⟩

/-- Settles O49. -/
theorem keyboardStateStaysCoherent : Obligations.KeyboardStateStaysCoherent := fun _ _ hs h =>
  step_keeps (fun _ => id) KeyboardInv.effect hs h

/-! ## miso with `CPHA = 0` -/

theorem MisoInv.of_same {s t : State} (hsame : SameBlock s t) (h : MisoInv s) : MisoInv t := by
  rwa [MisoInv, hsame.cfg, hsame.line, hsame.xchg]

/-- Loading a byte drives its first bit (40_line_ops.md R104). -/
theorem MisoInv.of_armByte (b : Byte) (s : State) : MisoInv (armByte b s) := fun _ => rfl

theorem MisoInv.of_replyTaken {u : State} (h : MisoInv u) (call : HandlerCall) (r : Option Byte) :
    MisoInv (replyTaken call (u, r)) := by
  cases call with
  | onSelect | onDeselect => exact h
  | onByteExchanged rx =>
    cases r with
    | none => exact h
    | some b => exact .of_armByte b u

theorem MisoInv.of_atHandler {i : Instr} {s : State} {call : HandlerCall} (h : MisoInv s)
    (hcall : handlerCalled i s = some call) : MisoInv (atHandler i s) := by
  obtain ⟨level, rfl, -⟩ | ⟨level, rfl, -⟩ := sel_or_clk_of_handlerCalled hcall
  · cases level <;> exact h
  · exact fun _ => (head_zero _).symm

theorem MisoInv.handler {s t : State} {call : HandlerCall} (heff : HandlerEffect s call t) (h : MisoInv s) :
    MisoInv t := by
  cases heff with
  | null | keyboardSelect | keyboardDeselect => exact h
  | keyboardByte => exact .of_armByte _ _
  | scripted hc hrun => exact MisoInv.of_replyTaken (h.of_same (scriptedCall_same hrun)) _ _

theorem MisoInv.bit {s : State} (h : MisoInv s) (level : Level) : MisoInv (bitAction level (setClk level s)) := by
  intro hpha
  rw [bitAction_cfg] at hpha
  cases hrole : sampleRole s.cfg.spi level with
  | true =>
    rw [bitAction_of_sample (s := setClk level s) hrole]
    exact h hpha
  | false =>
    rw [bitAction_of_shift (s := setClk level s) hrole, shift_of_cpha_zero hpha]

theorem MisoInv.effect {i : Instr} {s t : State} (h : Effect s i t) (hs : MisoInv s) : MisoInv t := by
  cases h with
  | handler hcall heff => exact (hs.of_atHandler hcall).handler heff
  | held | mosi | miso | irq => exact hs
  | bit => exact hs.bit _
  | arm b => exact .of_armByte b s
  | src hsrc => exact hs.of_same (setSource_same hsrc)
  | kbd hc hirq => exact MisoInv.of_same (setKirq_same hirq) hs
  | rst => exact fun _ => (head_zero _).symm

/-- Settles O50. -/
theorem misoShowsTheHeadInPhaseZero : Obligations.MisoShowsTheHeadInPhaseZero := fun _ _ hs h =>
  step_keeps (fun _ => id) MisoInv.effect hs h

/-! ## Reset -/

theorem inv_ofConfig (c : Config) : Inv (State.ofConfig c) where
  counts := .of_zero rfl rfl
  aggregator := ⟨by simp [State.ofConfig, wiredOr], by simp [State.ofConfig]⟩
  keyboard := ⟨rfl, fun _ => rfl, fun _ => ⟨fun _ => rfl, fun _ => rfl⟩, fun _ => rfl⟩
  miso := fun _ => (head_zero _).symm

/-- Settles O46. -/
theorem invariantsHoldAtReset : Obligations.InvariantsHoldAtReset := ⟨inv_ofConfig, inv_ofConfig Config.atReset⟩

end Sys2Proof.Machine
end

section
/-! Clients given by their transition tables (41_bit_engine.md R143; log 7): what a handler that stays within its rights
does, at a select edge and at the end of a byte, and that every finite state machine has a table. -/
namespace Sys2Proof.Machine

/-! ## A handler call -/

theorem SourcesApplied.congr {s s' t t' : State} {as : List ClientAction} {es : List Event}
    (h : SourcesApplied s t as es) (hs : s'.aggr = s.aggr) (hcfg : s'.cfg = s.cfg) (ht : t'.aggr = t.aggr) :
    SourcesApplied s' t' as es where
  flags j := by rw [hs, hcfg, ht]; exact h.flags j
  level := by rw [hs, hcfg, ht]; exact h.level
  exact := by rw [hs, hcfg]; exact h.exact
  events := h.events
  changes := by rw [hs]; exact h.changes
  last := by rw [hs, ht]; exact h.last

/-- What a table client's handler call that answers leaves (41_bit_engine.md R143, 43_interrupt_aggregator.md R211). -/
structure ScriptedRun (p : ClientScript) (call : HandlerCall) (s t : State) (es : List Event) : Prop where
  sources : SourcesApplied s t (scriptAnswer p s.clientState call).1.actions es
  trace : t.trace = s.trace ++ es
  same : SameBlock s t
  kbd : t.kbd = s.kbd
  clientState : t.clientState = (scriptAnswer p s.clientState call).2
  draws : t.draws = s.draws

theorem scriptedRun_of_scriptedCall {p : ClientScript} {call : HandlerCall} {s t : State} {r : Option Byte}
    (h : scriptedCall p call s = .next (t, r)) : ∃ es, ScriptedRun p call s t es := by
  obtain ⟨-, hrun⟩ := scriptedCall_eq_next.1 h
  obtain ⟨es, htrace, hsources⟩ := runActions_sources hrun
  obtain ⟨hkbd, hstate, hdraws⟩ := runActions_keeps hrun
  exact ⟨es, hsources.congr rfl rfl rfl, htrace, scriptedCall_same h, hkbd, hstate, hdraws⟩

theorem scriptedCall_of_allowed {p : ClientScript} {call : HandlerCall} {s : State}
    (hall : (scriptAnswer p s.clientState call).1.actions.all (ClientAction.allowed s.cfg.agg) = true) :
    ∃ t es, scriptedCall p call s = .next (t, (scriptAnswer p s.clientState call).1.reply) ∧
      ScriptedRun p call s t es := by
  obtain ⟨t, r, h⟩ := scriptedCall_completes hall
  obtain ⟨hreply, -⟩ := scriptedCall_eq_next.1 h
  obtain ⟨es, hrun⟩ := scriptedRun_of_scriptedCall h
  exact ⟨t, es, hreply ▸ h, hrun⟩

/-- An operation that calls a table client's handler, where that stays within R143. -/
theorem exec_of_scripted {i : Instr} {s : State} {p : ClientScript} {call : HandlerCall} {run : HandlerRun} {next : Nat}
    (hc : s.cfg.spi.client = .scripted p) (hcall : handlerCalled i s = some call)
    (hans : scriptAnswer p s.clientState call = (run, next))
    (hall : run.actions.all (ClientAction.allowed s.cfg.agg) = true) :
    ∃ t es, exec i s = .next (replyTaken call (t, run.reply)) ∧ ScriptedRun p call (atHandler i s) t es := by
  obtain ⟨t, es, hrun, hs⟩ := scriptedCall_of_allowed (p := p) (call := call) (s := atHandler i s)
    (by simpa [hans] using hall)
  rw [atHandler_clientState, hans] at hrun
  refine ⟨t, es, ?_, hs⟩
  rw [exec_of_handlerCalled hcall, runHandler_scripted (by simpa using hc), hrun, andThen_next]

/-- Settles O15: the handler runs on `selEdge`, and its reply is not used. -/
theorem scriptedHandlerRunsAtSelect : Obligations.ScriptedHandlerRunsAtSelect := by
  intro s level p run next hc hne hans hall
  have hcall : handlerCalled (.sel level) s = some (if level then .onSelect else .onDeselect) := if_neg hne
  obtain ⟨t, es, hexec, hrun⟩ := exec_of_scripted hc hcall hans hall
  have hkept : replyTaken (if level then .onSelect else .onDeselect) (t, run.reply) = t := by cases level <;> rfl
  have hsources := hrun.sources
  have hstate := hrun.clientState
  rw [atHandler_clientState, hans] at hsources hstate
  refine ⟨t, es, hkept ▸ hexec, hsources.congr (atHandler_aggr ..).symm (atHandler_cfg ..).symm rfl, ?_, ?_, ?_, hstate,
    ?_, ?_, ?_, ?_⟩
  · simp [hrun.same.line, atHandler]
  · simp [hrun.same.xchg, atHandler]
  · simp [hrun.kbd]
  · simp [hrun.draws]
  · simp [hrun.same.cfg]
  · simp [hrun.same.pending]
  · simp [hrun.trace, atHandler]

theorem replyTaken_byte_line (rx : Byte) (t : State) (r : Option Byte) :
    (replyTaken (.onByteExchanged rx) (t, r)).line = { t.line with
      miso := match r with
        | none => t.line.miso
        | some b => head t.cfg.spi.bitOrder b } := by
  cases r <;> rfl

theorem replyTaken_byte_xchg (rx : Byte) (t : State) (r : Option Byte) :
    (replyTaken (.onByteExchanged rx) (t, r)).xchg = { t.xchg with sendShift := r.getD t.xchg.sendShift } := by
  cases r <;> rfl

/-- Settles O55: the handler runs on `byteEnd`, and its reply is armed over that. -/
theorem scriptedHandlerRunsAtByteEnd : Obligations.ScriptedHandlerRunsAtByteEnd := by
  intro s level p run next hc he hans hall
  have hcall : handlerCalled (.clk level) s = some (.onByteExchanged (receivedByte level s)) := if_pos he
  obtain ⟨t, es, hexec, hrun⟩ := exec_of_scripted hc hcall hans hall
  have hsources := hrun.sources
  have hstate := hrun.clientState
  rw [atHandler_clientState, hans] at hsources hstate
  refine ⟨_, es, hexec, hsources.congr (atHandler_aggr ..).symm (atHandler_cfg ..).symm (replyTaken_aggr ..), ?_, ?_,
    ?_, ?_, ?_, ?_, ?_, ?_⟩
  · rw [replyTaken_byte_line, hrun.same.line, hrun.same.cfg]
    cases run.reply <;> rfl
  · rw [replyTaken_byte_xchg, hrun.same.xchg]
    rfl
  · simp [hrun.kbd]
  · simp [hstate]
  · simp [hrun.draws]
  · simp [hrun.same.cfg]
  · simp [hrun.same.pending]
  · simp [hrun.trace, atHandler]

/-- Settles O56, by induction on the calls: `runActions` and `runOps` both go on by `andThen`. -/
theorem setSourceCallsAreSrcOperations : Obligations.SetSourceCallsAreSrcOperations := by
  intro calls
  induction calls with
  | nil => exact fun _ => rfl
  | cons c calls ih => exact fun s => congrArg (andThen (setSource c.1 c.2 s)) (funext ih)

/-! ## The own state -/

theorem clearBuffer_clientState {s t : State} (h : clearBuffer s = .next t) : t.clientState = s.clientState := by
  obtain ⟨-, rfl⟩ := clearBuffer_eq_next.1 h
  simp

theorem keyboardByte_clientState {rx b : Byte} {s t : State} (h : keyboardByte rx s = .next (t, b)) :
    t.clientState = s.clientState := by
  rcases keyboardByte_cases h with ⟨-, -, -, h⟩ | ⟨-, -, -, -, h⟩ | ⟨-, -, -, -, rfl⟩ | ⟨-, -, -, -, -, rfl⟩ |
    ⟨-, -, rfl⟩ | ⟨-, -, rfl⟩
  · exact (clearBuffer_clientState h).trans rfl
  · exact (clearBuffer_clientState h).trans rfl
  all_goals rfl

/-- A handler call changes the own state only as a table says. -/
theorem HandlerEffect.clientState {s t : State} {call : HandlerCall} (h : HandlerEffect s call t) :
    t.clientState = s.clientState ∨
      ∃ p, s.cfg.spi.client = .scripted p ∧ t.clientState = (scriptAnswer p s.clientState call).2 := by
  cases h with
  | null | keyboardSelect | keyboardDeselect => exact .inl rfl
  | keyboardByte hc hbyte => exact .inl ((armByte_clientState ..).trans (keyboardByte_clientState hbyte))
  | @scripted p call u r hc hcall =>
    obtain ⟨es, hrun⟩ := scriptedRun_of_scriptedCall hcall
    exact .inr ⟨p, hc, by rw [replyTaken_clientState]; exact hrun.clientState⟩

/-- Settles O58. -/
theorem ownStateChangesInHandlersOnly : Obligations.OwnStateChangesInHandlersOnly := by
  intro i s t h hne
  cases effect_of_exec h with
  | handler hcall heff =>
    obtain heq | ⟨p, hc, heq⟩ := heff.clientState
    · exact absurd (heq.trans (atHandler_clientState i s)) hne
    · rw [atHandler_cfg] at hc
      rw [atHandler_clientState] at heq
      exact .inr ⟨p, _, hc, hcall, heq⟩
  | held | mosi | miso | arm | irq => exact absurd rfl hne
  | bit => exact absurd (by simp) hne
  | src hsrc =>
    obtain ⟨-, rfl⟩ := setSource_eq_next.1 hsrc
    exact absurd (by simp) hne
  | kbd hc hirq =>
    obtain ⟨-, rfl⟩ := setKirq_eq_next.1 hirq
    exact absurd (by simp) hne
  | rst => exact .inl rfl

/-! ## The table of a state machine -/

/-- Every handler call there is: a byte has 256 values. -/
def allCalls : List HandlerCall :=
  .onSelect :: .onDeselect :: (List.finRange (2 ^ 8)).map fun b => .onByteExchanged (BitVec.ofFin b)

theorem mem_allCalls (call : HandlerCall) : call ∈ allCalls := by
  cases call with
  | onSelect => exact List.mem_cons_self
  | onDeselect => exact List.mem_cons_of_mem _ List.mem_cons_self
  | onByteExchanged rx =>
    exact List.mem_cons_of_mem _ (List.mem_cons_of_mem _ (List.mem_map.2 ⟨rx.toFin, List.mem_finRange _, rfl⟩))

section
variable {n : Nat} (handler : Fin n → HandlerCall → HandlerRun × Fin n)

/-- The line of a state machine's table for one own state and one call. -/
def machineRow (q : Fin n) (call : HandlerCall) : ClientRow :=
  ⟨q.val, call, (handler q call).1, (handler q call).2.val⟩

/-- The transition table of a finite state machine: a line for every own state and every call. -/
def machineTable (start : Fin n) : ClientScript :=
  ⟨start.val, (List.finRange n).flatMap fun q => allCalls.map (machineRow handler q)⟩

theorem mem_machineTable {start : Fin n} {r : ClientRow} :
    r ∈ (machineTable handler start).rows ↔ ∃ q call, machineRow handler q call = r := by
  simp [machineTable, mem_allCalls]

theorem scriptAnswer_machineTable (start q : Fin n) (call : HandlerCall) :
    scriptAnswer (machineTable handler start) q.val call = ((handler q call).1, (handler q call).2.val) := by
  unfold scriptAnswer
  split
  · next r hfind =>
    obtain ⟨q', call', rfl⟩ := (mem_machineTable handler).1 (List.mem_of_find?_eq_some hfind)
    have hkey := List.find?_some hfind
    obtain ⟨hq, rfl⟩ : q'.val = q.val ∧ call' = call := of_decide_eq_true hkey
    obtain rfl := Fin.ext hq
    rfl
  · next hfind =>
    have hrow := List.find?_eq_none.1 hfind _ ((mem_machineTable handler).2 ⟨q, call, rfl⟩)
    simp [machineRow] at hrow

end

/-- Settles O57, by `machineTable`. -/
theorem everyStateMachineIsAClient : Obligations.EveryStateMachineIsAClient := fun _ handler start =>
  ⟨machineTable handler start, rfl, scriptAnswer_machineTable handler start⟩

end Sys2Proof.Machine
end

section
/-! The keyboard reference client (42_keyboard_client.md R174 to R183): its byte handler state by state and command by
command, then the same as the effect of the CLK that ends the byte. -/
namespace Sys2Proof.Machine

/-! ## Command bytes -/

theorem getLsbD_seven_eq_false_iff (b : Byte) : b.getLsbD 7 = false ↔ b.toNat < 0x80 := by
  have hlt := b.isLt
  rw [BitVec.getLsbD, Nat.testBit_eq_decide_div_mod_eq, decide_eq_false_iff_not]
  omega

theorem getLsbD_seven_eq_true_iff (b : Byte) : b.getLsbD 7 = true ↔ 0x80 ≤ b.toNat := by
  rw [← Bool.not_eq_false, getLsbD_seven_eq_false_iff, Nat.not_lt]

/-- The code of a control byte is what it adds to 0x80 (42_keyboard_client.md R174). -/
theorem extractLsb'_eq_iff_of_control {b : Byte} (hb : 0x80 ≤ b.toNat) (code : BitVec 7) :
    b.extractLsb' 0 7 = code ↔ b.toNat = 0x80 + code.toNat := by
  have hlt := b.isLt
  have hcode := code.isLt
  rw [← BitVec.toNat_inj, BitVec.extractLsb'_toNat, Nat.shiftRight_zero]
  omega

/-! ## The byte handler -/

/-- RECOMPUTE as what it adds to the trace. -/
theorem recompute_eq_append (s : State) :
    recompute s = { s with
      aggr := ⟨s.aggr.flag, wiredOr s.cfg.agg s.aggr.flag⟩
      trace := s.trace ++ if wiredOr s.cfg.agg s.aggr.flag = s.aggr.agg then []
        else [.irqChange (wiredOr s.cfg.agg s.aggr.flag)] } := by
  rw [recompute_eq]
  split <;> simp

/-- The buffer emptied and the keyboard's input deasserted (42_keyboard_client.md R175, R177, R180). -/
def bufferCleared (s : State) : State :=
  let flag := s.aggr.flag.set s.cfg.spi.kbdSrc false
  let agg := wiredOr s.cfg.agg flag
  { s with
    kbd := ⟨s.kbd.kstate, 0x00, false, false⟩
    aggr := ⟨flag, agg⟩
    trace := s.trace ++ if agg = s.aggr.agg then [] else [.irqChange agg] }

theorem clearBuffer_of_has {s : State} (hi : hasSource s.cfg.agg s.cfg.spi.kbdSrc = true) :
    clearBuffer s = .next (bufferCleared s) :=
  clearBuffer_eq_next.2 ⟨hi, recompute_eq_append _⟩

theorem clearBuffer_setKbd_of_has {s : State} (hi : hasSource s.cfg.agg s.cfg.spi.kbdSrc = true) (k : KeyboardState) :
    clearBuffer (setKbd k s) = .next (bufferCleared (setKbd k s)) :=
  clearBuffer_of_has hi

section
variable {s : State} {rx : Byte}

theorem keyboardByte_read (hk : s.kbd.kstate = .newlySelected) (hrx : rx.toNat < 0x80)
    (hi : hasSource s.cfg.agg s.cfg.spi.kbdSrc = true) :
    keyboardByte rx s =
      .next (bufferCleared (setKbd { s.kbd with kstate := .readyToRead } s), s.kbd.scancodeBuffer) := by
  simp only [keyboardByte, hk, (getLsbD_seven_eq_false_iff rx).2 hrx, Bool.false_eq_true, if_false, keyboardRead,
    clearBuffer_setKbd_of_has hi, andThen_next]

theorem keyboardByte_control (hk : s.kbd.kstate = .newlySelected) (hrx : 0x80 ≤ rx.toNat) :
    keyboardByte rx s = controlCode (rx.extractLsb' 0 7) (setKbd { s.kbd with kstate := .readyToRespond } s) := by
  simp only [keyboardByte, hk, (getLsbD_seven_eq_true_iff rx).2 hrx, if_true, keyboardControl]

theorem controlCode_reset (hi : hasSource s.cfg.agg s.cfg.spi.kbdSrc = true) :
    controlCode 0 s = .next (bufferCleared s, 0x00) := by
  simp only [controlCode, if_true, clearBuffer_of_has hi, andThen_next]

theorem controlCode_peek : controlCode 1 s = .next (s, if s.kbd.bufferFull then 0xFF else 0x00) := rfl

theorem controlCode_unknown {code : BitVec 7} (h0 : code ≠ 0) (h1 : code ≠ 1) :
    controlCode code s = .next (setDraws (s.draws + 1) s, Config.kbdUnknownResponse s.draws) :=
  (if_neg h0).trans (if_neg h1)

theorem keyboardByte_after_command
    (hk : s.kbd.kstate = .readyToRead ∨ s.kbd.kstate = .readyToRespond ∨ s.kbd.kstate = .done) :
    keyboardByte rx s = .next (setKbd { s.kbd with kstate := .done } s, 0x00) := by
  rcases hk with hk | hk | hk <;> simp only [keyboardByte, hk]
  rw [← hk]
  rfl

end

/-! ## The CLK that ends a byte -/

section
variable {s : State} {level : Level}

theorem exec_clk_of_keyboard (hc : s.cfg.spi.client = .keyboard) (he : endsByte level s = true) :
    exec (.clk level) s =
      andThen (keyboardByte (receivedByte level s) (byteEnd level s)) fun r => .next (armByte r.2 r.1) := by
  rw [exec_clk_of_endsByte he, onByteExchanged, byteEnd_cfg, hc]
  cases keyboardByte (receivedByte level s) (byteEnd level s) <;> rfl

theorem exec_clk_of_keyboardByte {u : State} {b : Byte} (hc : s.cfg.spi.client = .keyboard)
    (he : endsByte level s = true) (h : keyboardByte (receivedByte level s) (byteEnd level s) = .next (u, b)) :
    exec (.clk level) s = .next (armByte b u) := by
  rw [exec_clk_of_keyboard hc he, h, andThen_next]

end

/-- A command that empties the buffer, at the end of a byte, with reply b (42_keyboard_client.md R175, R177). -/
theorem armByte_bufferCleared (k : KState) (b : Byte) (level : Level) (s : State) :
    armByte b (bufferCleared (setKbd { s.kbd with kstate := k } (byteEnd level s))) =
      let flag := s.aggr.flag.set s.cfg.spi.kbdSrc false
      let agg := wiredOr s.cfg.agg flag
      { s with
        line := { s.line with clk := level, miso := head s.cfg.spi.bitOrder b }
        xchg := ⟨receivedByte level s, b, 0, 0⟩
        kbd := ⟨k, 0x00, false, false⟩
        aggr := ⟨flag, agg⟩
        trace := s.trace ++ .byteExchanged (receivedByte level s) ::
          (if agg = s.aggr.agg then [] else [.irqChange agg]) } := by
  simp only [armByte, setMiso, setSendShift, bufferCleared, setKbd, byteEnd, List.append_assoc, List.singleton_append]
  rfl

/-- Settles O29. -/
theorem keyboardReadCommand : Obligations.KeyboardReadCommand := by
  intro s level hc hi he hk hrx
  have hbyte := keyboardByte_read (s := byteEnd level s) hk hrx ((hasSource_iff ..).2 hi)
  have hexec := (exec_clk_of_keyboardByte hc he hbyte).trans (congrArg _ (armByte_bufferCleared ..))
  refine ⟨hexec, fun ⟨_, hbuf, _⟩ hempty => ⟨_, hexec, hbuf hempty, ?_⟩⟩
  show head s.cfg.spi.bitOrder s.kbd.scancodeBuffer = false
  rw [hbuf hempty]
  exact head_zero _

/-- Settles O30: code 0x00 is `controlCode_reset`, with reply 0x00. -/
theorem keyboardControlReset : Obligations.KeyboardControlReset := by
  intro s level hc hi he hk hrx
  have hbyte := keyboardByte_control (s := byteEnd level s) (rx := receivedByte level s) hk (by rw [hrx]; decide)
  rw [show (receivedByte level s).extractLsb' 0 7 = 0 by rw [hrx]; rfl,
    controlCode_reset (by exact (hasSource_iff ..).2 hi)] at hbyte
  refine (exec_clk_of_keyboardByte hc he hbyte).trans (congrArg _ ((armByte_bufferCleared ..).trans ?_))
  simp only [BitVec.ofNat_eq_ofNat, head_zero, hrx]

theorem head_peek (o : BitOrder) (full : Level) : head o (if full then 0xFF else 0x00) = full := by
  cases o <;> cases full <;> rfl

/-- Settles O31: code 0x01 is `controlCode_peek`. -/
theorem keyboardPeek : Obligations.KeyboardPeek := by
  intro s level hc he hk hrx
  have hbyte := keyboardByte_control (s := byteEnd level s) (rx := receivedByte level s) hk (by rw [hrx]; decide)
  rw [show (receivedByte level s).extractLsb' 0 7 = 1 by rw [hrx]; rfl, controlCode_peek] at hbyte
  refine (exec_clk_of_keyboardByte hc he hbyte).trans (congrArg _ ?_)
  simp only [armByte, setMiso, setSendShift, setKbd, byteEnd, head_peek, hrx]

/-- Settles O32: the reply is the draw, whatever it is. -/
theorem keyboardUnknownControlCode : Obligations.KeyboardUnknownControlCode := by
  intro s level hc he hk hrx
  have hcontrol : 0x80 ≤ (receivedByte level s).toNat := by omega
  have hbyte := keyboardByte_control (s := byteEnd level s) hk hcontrol
  rw [controlCode_unknown (by rw [ne_eq, extractLsb'_eq_iff_of_control hcontrol]; simp; omega)
    (by rw [ne_eq, extractLsb'_eq_iff_of_control hcontrol]; simp; omega)] at hbyte
  exact ⟨_, exec_clk_of_keyboardByte hc he hbyte⟩

/-- Settles O33. -/
theorem keyboardAfterCommandByte : Obligations.KeyboardAfterCommandByte := by
  intro s level hc he hk
  refine (exec_clk_of_keyboardByte hc he (keyboardByte_after_command (s := byteEnd level s) hk)).trans (congrArg _ ?_)
  simp only [armByte, setMiso, setSendShift, setKbd, byteEnd, BitVec.ofNat_eq_ofNat, head_zero]

/-! ## KBD -/

theorem decode_wordOf_kbd {c : Config} (hc : c.spi.client = .keyboard) (b : Byte) :
    decode c (wordOf 0x8 0 b) = .ok (.kbd b) :=
  decode_encode (i := .kbd b) (decide_eq_true hc)

theorem decode_wordOf_kbd_of_not_keyboard {c : Config} (hc : c.spi.client ≠ .keyboard) (b : Byte) :
    decode c (wordOf 0x8 0 b) = .error .noKeyboardClient := by
  obtain ⟨-, -, -, hrefused⟩ := refusedWordReasons c (wordOf 0x8 0 b)
  exact hrefused.2 ⟨by rw [opField_wordOf]; rfl, idxField_wordOf .., hc⟩

theorem wiredOr_set_true {c : AggConfig} {i : SrcIdx} (hi : hasSource c i = true) (flag : Vector Level 16) :
    wiredOr c (flag.set i true) = true :=
  (wiredOr_iff ..).2 ⟨i, hi, by simp⟩

/-- Settles O34: KBD's flag alone asserts the aggregate. -/
theorem kbdPushesScancode : Obligations.KbdPushesScancode := by
  refine fun s b => ⟨fun hc hi => ⟨decode_wordOf_kbd hc b, ?_⟩,
    fun hc => ⟨decode_wordOf_kbd_of_not_keyboard hc b, exec_kbd_of_not_keyboard hc b⟩⟩
  have hsource := (hasSource_iff ..).2 hi
  rw [exec_kbd_eq_recompute hc hsource, recompute_eq]
  simp only [setFlag, setKbd, wiredOr_set_true hsource]
  cases s.aggr.agg <;> rfl

end Sys2Proof.Machine
end

section
/-! The aggregator seen from outside: what the trace tells of it (43_interrupt_aggregator.md R204), when it falls
(R207), its laws (R210) and its packed view (10_state.md R35). -/
namespace Sys2Proof.Machine

/-! ## The `IrqChange` events of a list carry all that it tells -/

theorem irqChanges_append (xs ys : List Event) : irqChanges (xs ++ ys) = irqChanges xs ++ irqChanges ys := by
  induction xs with
  | nil => rfl
  | cons e xs ih => cases e <;> simp only [List.cons_append, irqChanges, ih]

theorem changesOnly_irqChanges (v : Level) (es : List Event) : changesOnly v (irqChanges es) = changesOnly v es := by
  induction es generalizing v with
  | nil => rfl
  | cons e es ih => cases e <;> simp only [irqChanges, changesOnly, ih]

theorem levelAfter_irqChanges (v : Level) (es : List Event) : levelAfter v (irqChanges es) = levelAfter v es := by
  induction es generalizing v with
  | nil => rfl
  | cons e es ih => cases e <;> simp only [irqChanges, levelAfter, ih]

theorem irqChanges_of_all {es : List Event} (h : ∀ e ∈ es, ∃ v, e = .irqChange v) : irqChanges es = es := by
  induction es with
  | nil => rfl
  | cons e es ih =>
    obtain ⟨⟨v, rfl⟩, hes⟩ := List.forall_mem_cons.1 h
    rw [irqChanges, ih hes]

/-! ## One change of `agg`, told once -/

/-- The event that tells `agg` went from v to w, if it did (43_interrupt_aggregator.md R204). -/
def changeOf (v w : Level) : List Event := if w = v then [] else [.irqChange w]

theorem changesOnly_changeOf (v w : Level) : changesOnly v (changeOf v w) = true := by
  unfold changeOf; split <;> simp_all [changesOnly]

theorem levelAfter_changeOf (v w : Level) : levelAfter v (changeOf v w) = w := by
  unfold changeOf; split <;> simp_all [levelAfter]

/-- `agg` stays, and no event says otherwise. -/
def Quiet (s t : State) : Prop := ∃ es, t.trace = s.trace ++ es ∧ irqChanges es = [] ∧ t.aggr.agg = s.aggr.agg

/-- The events between the two states tell how `agg` differs, once. -/
def TellsOnce (s t : State) : Prop :=
  ∃ es, t.trace = s.trace ++ es ∧ irqChanges es = changeOf s.aggr.agg t.aggr.agg

theorem Quiet.of_eq {s t : State} (htrace : t.trace = s.trace) (hagg : t.aggr = s.aggr) : Quiet s t :=
  ⟨[], by simp [htrace], rfl, by rw [hagg]⟩

theorem Quiet.of_event {s t : State} {e : Event} (htrace : t.trace = s.trace ++ [e]) (he : irqChanges [e] = [])
    (hagg : t.aggr = s.aggr) : Quiet s t :=
  ⟨[e], htrace, he, by rw [hagg]⟩

theorem Quiet.tellsOnce {s t : State} (h : Quiet s t) : TellsOnce s t := by
  obtain ⟨es, htrace, hnone, hagg⟩ := h
  exact ⟨es, htrace, hnone.trans (if_pos hagg).symm⟩

theorem TellsOnce.after_quiet {s u t : State} (h : TellsOnce u t) (hquiet : Quiet s u) : TellsOnce s t := by
  obtain ⟨xs, hxs, hnone, hagg⟩ := hquiet
  obtain ⟨ys, hys, htold⟩ := h
  exact ⟨xs ++ ys, by rw [hys, hxs, List.append_assoc], by rw [irqChanges_append, hnone, htold, hagg]; rfl⟩

theorem TellsOnce.before_quiet {s u t : State} (h : TellsOnce s u) (hquiet : Quiet u t) : TellsOnce s t := by
  obtain ⟨xs, hxs, htold⟩ := h
  obtain ⟨ys, hys, hnone, hagg⟩ := hquiet
  exact ⟨xs ++ ys, by rw [hys, hxs, List.append_assoc], by rw [irqChanges_append, hnone, htold, hagg, List.append_nil]⟩

theorem setSource_tellsOnce {i : SrcIdx} {raw : Level} {s t : State} (h : setSource i raw s = .next t) :
    TellsOnce s t := by
  obtain ⟨-, -, -, es, htrace, hes, hall, -⟩ := setSource_parts h
  exact ⟨es, htrace, (irqChanges_of_all hall).trans hes⟩

theorem setKirq_tellsOnce {v : Level} {s t : State} (h : setKirq v s = .next t) : TellsOnce s t :=
  (setSource_tellsOnce h).after_quiet (.of_eq rfl rfl)

theorem clearBuffer_tellsOnce {s t : State} (h : clearBuffer s = .next t) : TellsOnce s t :=
  (setKirq_tellsOnce h).after_quiet (.of_eq rfl rfl)

theorem keyboardByte_tellsOnce {rx b : Byte} {s t : State} (h : keyboardByte rx s = .next (t, b)) : TellsOnce s t := by
  rcases keyboardByte_cases h with ⟨-, -, -, h⟩ | ⟨-, -, -, -, h⟩ | ⟨-, -, -, -, rfl⟩ | ⟨-, -, -, -, -, rfl⟩ |
    ⟨-, -, rfl⟩ | ⟨-, -, rfl⟩
  · exact (clearBuffer_tellsOnce h).after_quiet (.of_eq rfl rfl)
  · exact (clearBuffer_tellsOnce h).after_quiet (.of_eq rfl rfl)
  all_goals exact Quiet.tellsOnce (.of_eq rfl rfl)

theorem HandlerEffect.tellsOnce {s t : State} {call : HandlerCall} (h : HandlerEffect s call t)
    (hno : ∀ p, s.cfg.spi.client ≠ .scripted p) : TellsOnce s t := by
  cases h with
  | null | keyboardSelect | keyboardDeselect => exact Quiet.tellsOnce (.of_eq rfl rfl)
  | keyboardByte hc hbyte => exact (keyboardByte_tellsOnce hbyte).before_quiet (.of_eq rfl rfl)
  | scripted hc => exact absurd hc (hno _)

/-- Before the handler's own events there is one that says nothing of `agg`. -/
theorem quiet_atHandler {i : Instr} {s : State} {call : HandlerCall} (hcall : handlerCalled i s = some call) :
    Quiet s (atHandler i s) := by
  obtain ⟨level, rfl, -⟩ | ⟨level, rfl, -⟩ := sel_or_clk_of_handlerCalled hcall
  · cases level <;> exact .of_event rfl rfl rfl
  · exact .of_event rfl rfl rfl

theorem Effect.tellsOnce {i : Instr} {s t : State} (h : Effect s i t) (hi : i ≠ .rst)
    (hno : ∀ p call, s.cfg.spi.client = .scripted p → handlerCalled i s ≠ some call) : TellsOnce s t := by
  cases h with
  | handler hcall heff =>
    exact (heff.tellsOnce fun p hp => hno p _ (by simpa using hp) hcall).after_quiet (quiet_atHandler hcall)
  | held | mosi | arm => exact Quiet.tellsOnce (.of_eq rfl rfl)
  | bit => exact Quiet.tellsOnce (.of_eq (by simp) (by simp))
  | miso | irq => exact Quiet.tellsOnce (.of_event rfl rfl rfl)
  | src hsrc => exact setSource_tellsOnce hsrc
  | kbd hc hirq => exact (setKirq_tellsOnce hirq).after_quiet (.of_eq rfl rfl)
  | rst => exact absurd rfl hi

/-! ## A table client's calls, each with its own event -/

theorem Effect.tells_of_scripted {i : Instr} {s t : State} {p : ClientScript} {call : HandlerCall} (h : Effect s i t)
    (hi : i ≠ .rst) (hc : s.cfg.spi.client = .scripted p) (hcall : handlerCalled i s = some call) :
    ∃ es, t.trace = s.trace ++ es ∧ changesOnly s.aggr.agg (irqChanges es) = true ∧
      levelAfter s.aggr.agg (irqChanges es) = t.aggr.agg ∧
      irqChanges es = sourceEvents s.cfg.agg s.aggr.flag s.aggr.agg (scriptAnswer p s.clientState call).1.actions := by
  cases h with
  | @handler _ call' _ hcall' heff =>
    obtain rfl : call' = call := Option.some.inj (hcall'.symm.trans hcall)
    cases heff with
    | null hnull => simp [hc] at hnull
    | keyboardSelect hkbd | keyboardDeselect hkbd | keyboardByte hkbd => simp [hc] at hkbd
    | @scripted p' _ u r hc' hrun =>
      obtain rfl : p = p' := by simpa [hc] using hc'
      obtain ⟨es, hsources, htrace, -⟩ := scriptedRun_of_scriptedCall hrun
      rw [atHandler_clientState] at hsources
      obtain ⟨xs, hxs, hnone, -⟩ := quiet_atHandler hcall
      have hes : irqChanges (xs ++ es) = es := by
        rw [irqChanges_append, hnone, irqChanges_of_all hsources.events, List.nil_append]
      refine ⟨xs ++ es, ?_, ?_, ?_, ?_⟩
      · rw [replyTaken_trace, htrace, hxs, List.append_assoc]
      · rw [hes]; simpa using hsources.changes
      · rw [hes]; simpa using hsources.last
      · rw [hes]; simpa using hsources.exact
  | held hnone => rw [hcall] at hnone; cases hnone
  | bit hq he => rw [handlerCalled, he] at hcall; cases hcall
  | mosi | miso | arm | src | irq | kbd => cases hcall
  | rst => exact absurd rfl hi

/-- Settles O37, by whether a table client's handler runs. -/
theorem irqChangeTracksAggregate : Obligations.IrqChangeTracksAggregate := by
  intro i s t h
  have heffect := effect_of_exec h
  refine ⟨fun hi => ?_, fun hi => ?_⟩
  · by_cases hscript : ∃ p call, s.cfg.spi.client = .scripted p ∧ handlerCalled i s = some call
    · obtain ⟨p, call, hc, hcall⟩ := hscript
      obtain ⟨es, htrace, hchanges, hlast, hexact⟩ := heffect.tells_of_scripted hi hc hcall
      rw [changesOnly_irqChanges] at hchanges
      rw [levelAfter_irqChanges] at hlast
      refine ⟨es, htrace, hchanges, hlast, fun hno => absurd hcall (hno p call hc), fun p' call' hc' hcall' => ?_⟩
      obtain rfl : p = p' := by simpa [hc] using hc'
      obtain rfl : call = call' := by simpa [hcall] using hcall'
      exact hexact
    · have hno : ∀ p call, s.cfg.spi.client = .scripted p → handlerCalled i s ≠ some call :=
        fun p call hc hcall => hscript ⟨p, call, hc, hcall⟩
      obtain ⟨es, htrace, htold⟩ := heffect.tellsOnce hi hno
      refine ⟨es, htrace, ?_, ?_, fun _ => htold, fun p call hc hcall => absurd hcall (hno p call hc)⟩
      · rw [← changesOnly_irqChanges, htold, changesOnly_changeOf]
      · rw [← levelAfter_irqChanges, htold, levelAfter_changeOf]
  · subst hi
    cases h
    rfl

/-! ## When a flag is cleared -/

theorem setSource_flag_of_ne {i j : SrcIdx} {raw : Level} {s t : State} (h : setSource i raw s = .next t)
    (hij : i ≠ j) : t.aggr.flag[j] = s.aggr.flag[j] := by
  obtain ⟨-, rfl⟩ := setSource_eq_next.1 h
  rw [recompute_aggr, setFlag_read, if_neg hij]

theorem clearBuffer_flag_of_ne {j : SrcIdx} {s t : State} (h : clearBuffer s = .next t)
    (hj : s.cfg.spi.kbdSrc ≠ j) : t.aggr.flag[j] = s.aggr.flag[j] := by
  obtain ⟨-, rfl⟩ := clearBuffer_eq_next.1 h
  rw [recompute_aggr, setFlag_read, if_neg hj, setKbd_aggr]

theorem keyboardByte_flag_of_ne {j : SrcIdx} {rx b : Byte} {s t : State} (h : keyboardByte rx s = .next (t, b))
    (hj : s.cfg.spi.kbdSrc ≠ j) : t.aggr.flag[j] = s.aggr.flag[j] := by
  rcases keyboardByte_cases h with ⟨-, -, -, h⟩ | ⟨-, -, -, -, h⟩ | ⟨-, -, -, -, rfl⟩ | ⟨-, -, -, -, -, rfl⟩ |
    ⟨-, -, rfl⟩ | ⟨-, -, rfl⟩
  · exact (clearBuffer_flag_of_ne h hj).trans rfl
  · exact (clearBuffer_flag_of_ne h hj).trans rfl
  all_goals rfl

theorem setKirq_true_keeps_set {j : SrcIdx} {s t : State} (h : setKirq true s = .next t)
    (hset : s.aggr.flag[j] = true) : t.aggr.flag[j] = true := by
  obtain ⟨-, rfl⟩ := setKirq_eq_next.1 h
  rw [recompute_aggr, setFlag_read]
  split
  · rfl
  · exact hset

/-- Who clears a flag (43_interrupt_aggregator.md R207). -/
theorem Effect.cleared_by {i : Instr} {s t : State} {j : SrcIdx} (h : Effect s i t) (hset : s.aggr.flag[j] = true)
    (hclear : t.aggr.flag[j] = false) :
    (∃ raw, i = .src j raw) ∨ i = .rst ∨
      (s.cfg.spi.client = .keyboard ∧ s.cfg.spi.kbdSrc = j ∧ ∃ v, i = .clk v) ∨
      ((∃ p, s.cfg.spi.client = .scripted p) ∧ ∃ v, i = .sel v ∨ i = .clk v) := by
  have hchanged : t.aggr.flag[j] ≠ s.aggr.flag[j] := by rw [hset, hclear]; decide
  cases h with
  | handler hcall heff =>
    cases heff with
    | null | keyboardSelect | keyboardDeselect => exact absurd (by simp) hchanged
    | keyboardByte hc hbyte =>
      obtain ⟨level, rfl, -, -⟩ := eq_clk_of_onByteExchanged hcall
      by_cases hj : s.cfg.spi.kbdSrc = j
      · exact .inr (.inr (.inl ⟨hc, hj, level, rfl⟩))
      · exact absurd (keyboardByte_flag_of_ne hbyte hj) hchanged
    | scripted hc =>
      rw [atHandler_cfg] at hc
      obtain ⟨level, rfl, -⟩ | ⟨level, rfl, -⟩ := sel_or_clk_of_handlerCalled hcall
      · exact .inr (.inr (.inr ⟨⟨_, hc⟩, level, .inl rfl⟩))
      · exact .inr (.inr (.inr ⟨⟨_, hc⟩, level, .inr rfl⟩))
  | held | mosi | miso | arm | irq => exact absurd rfl hchanged
  | bit => exact absurd (by simp) hchanged
  | @src k raw _ hsrc =>
    by_cases hk : k = j
    · exact .inl ⟨raw, by rw [hk]⟩
    · exact absurd (setSource_flag_of_ne hsrc hk) hchanged
  | kbd hc hirq => exact absurd (setKirq_true_keeps_set hirq hset) (by simp [hclear])
  | rst => exact .inr (.inl rfl)

theorem AggregatorInv.flag_eq_false {s : State} (h : AggregatorInv s) (hagg : s.aggr.agg = false) (j : SrcIdx) :
    s.aggr.flag[j] = false := by
  obtain ⟨hor, habsent⟩ := h
  cases hj : hasSource s.cfg.agg j with
  | true => exact (wiredOr_false_iff ..).1 (hor.symm.trans hagg) j hj
  | false => exact habsent j hj

/-- Settles O38: the invariant says when `agg` is 0, `Effect.cleared_by` who clears a flag. -/
theorem aggregateFallsOnlyWhenAllInputsDeassert : Obligations.AggregateFallsOnlyWhenAllInputsDeassert :=
  fun _ _ _ hs h => ⟨fun _ hfall => (AggregatorInv.effect (effect_of_exec h) hs).flag_eq_false hfall,
    fun _ => (effect_of_exec h).cleared_by⟩

/-! ## Laws -/

/-- Settles O39: after SRC `agg` is the OR of the flags, and the flag of input i is as SRC presented it. -/
theorem aggregatorLaws : Obligations.AggregatorLaws := by
  intro s t i raw h
  obtain ⟨hi, rfl⟩ := setSource_eq_next.1 h
  have hflag := setFlag_read s i
  simp only [recompute_aggr, setFlag_cfg]
  refine ⟨fun hset => (wiredOr_iff ..).2 ⟨i, hi, hset⟩, fun hnone => (wiredOr_false_iff ..).2 fun j _ => hnone j,
    fun j hji hj hset hagg => ?_, ?_⟩
  · have hor : wiredOr s.cfg.agg (setFlag i (logicalFlag s.cfg.agg i raw) s).aggr.flag = true :=
      (wiredOr_iff ..).2 ⟨j, (hasSource_iff ..).2 hj, by rw [hflag, if_neg hji.symm]; exact hset⟩
    exact ⟨hor, by rw [recompute_trace]; exact if_pos (hor.trans hagg.symm)⟩
  · rw [exec_src_eq_recompute (by simpa [hasSource_iff] using hi), setFlag_of_held, recompute_of_agg]
    · simp
    · simp

/-! ## The packed view -/

theorem getLsbD_irqFlags (c : AggConfig) (flag : Vector Level 16) (i : SrcIdx) :
    (irqFlags c flag).getLsbD i.val = (hasSource c i && flag[i]) := by
  rw [irqFlags, BitVec.getLsbD_setWidth, BitVec.getLsbD_ofBoolListLE]
  simp

theorem irqFlags_eq_zero_iff (c : AggConfig) (flag : Vector Level 16) :
    irqFlags c flag = 0 ↔ wiredOr c flag = false := by
  rw [wiredOr_false_iff]
  refine ⟨fun h i hi => ?_, fun h => BitVec.eq_of_getLsbD_eq fun i hi => ?_⟩
  · have hbit := getLsbD_irqFlags c flag i
    rw [h, hi, Bool.true_and] at hbit
    exact hbit.symm.trans (BitVec.getLsbD_zero ..)
  · rw [getLsbD_irqFlags c flag ⟨i, hi⟩]
    cases hs : hasSource c ⟨i, hi⟩ with
    | true => simpa using h ⟨i, hi⟩ hs
    | false => simp

/-- Settles O40: a place that is no input is 0 by the invariant, so the view shows every flag. -/
theorem irqFlagsView : Obligations.IrqFlagsView := by
  rintro s ⟨hor, habsent⟩
  refine ⟨fun i => ?_, ?_⟩
  · rw [getLsbD_irqFlags]
    cases hi : hasSource s.cfg.agg i with
    | true => exact Bool.true_and _
    | false => rw [habsent i hi, Bool.and_false]
  · rw [hor, Bool.eq_iff_iff, decide_eq_true_iff, ne_eq, irqFlags_eq_zero_iff, Bool.not_eq_false]

end Sys2Proof.Machine
end

section
/-! What an operation does not depend on and does not write (10_state.md §5, its table of readers and writers;
40_line_ops.md, its summary; 43_interrupt_aggregator.md R200, R206). -/
namespace Sys2Proof.Machine

/-! ## Who writes what -/

/-- The operations that may write the lines and the exchange (10_state.md §5). -/
theorem Effect.line_writers {i : Instr} {s t : State} (h : Effect s i t) :
    (t.line.sel ≠ s.line.sel → (∃ v, i = .sel v) ∨ i = .rst) ∧
    (t.line.clk ≠ s.line.clk → (∃ v, i = .clk v ∧ s.line.sel = true) ∨ i = .rst) ∧
    (t.line.mosi ≠ s.line.mosi → (∃ v, i = .mosi v ∧ s.line.sel = true) ∨ i = .rst) ∧
    (t.line.miso ≠ s.line.miso → (∃ b, i = .arm b) ∨ (∃ v, i = .clk v) ∨ i = .rst) ∧
    t.pending = s.pending := by
  cases h with
  | handler hcall heff =>
    have hpending := heff.frame.pending.trans (atHandler_pending i s)
    obtain ⟨level, rfl, hselect⟩ | ⟨level, rfl, he⟩ := sel_or_clk_of_handlerCalled hcall
    · have hline := (heff.same_of_select hselect).line
      simp [hline, atHandler, hpending]
    · have hline := heff.frame.line
      have hsel := selected_of_qualifies (qualifies_of_endsByte he)
      rw [hline]
      simp [atHandler, hsel, hpending]
  | held | miso | irq => simp
  | bit hq =>
    rw [bitAction_line]
    simp [selected_of_qualifies hq]
  | mosi hsel => simp [hsel]
  | arm => simp
  | src hsrc => have hsame := setSource_same hsrc; simp [hsame.line, hsame.pending]
  | kbd hc hirq => have hsame := setKirq_same hirq; simp [hsame.line, hsame.pending]
  | rst => simp

theorem Effect.xchg_writers {i : Instr} {s t : State} (h : Effect s i t) :
    (t.xchg.recvShift ≠ s.xchg.recvShift → (∃ v, i = .clk v) ∨ i = .rst) ∧
    (t.xchg.sendShift ≠ s.xchg.sendShift → (∃ b, i = .arm b) ∨ (∃ v, i = .clk v) ∨ i = .rst) ∧
    (t.xchg.recvCount ≠ s.xchg.recvCount ∨ t.xchg.sendCount ≠ s.xchg.sendCount →
      (∃ v, i = .clk v) ∨ i = .sel true ∨ i = .rst) := by
  cases h with
  | handler hcall heff =>
    obtain ⟨level, rfl, hselect⟩ | ⟨level, rfl, -⟩ := sel_or_clk_of_handlerCalled hcall
    · have hxchg := (heff.same_of_select hselect).xchg
      cases level <;> simp [hxchg, atHandler]
    · simp
  | held | mosi | miso | arm | irq | rst | bit => simp
  | src hsrc => simp [(setSource_same hsrc).xchg]
  | kbd hc hirq => simp [(setKirq_same hirq).xchg]

theorem HandlerEffect.aggr {s t : State} {call : HandlerCall} (h : HandlerEffect s call t) :
    t.aggr = s.aggr ∨ (s.cfg.spi.client = .keyboard ∧ ∃ rx, call = .onByteExchanged rx) ∨
      ∃ p, s.cfg.spi.client = .scripted p := by
  cases h with
  | null | keyboardSelect | keyboardDeselect => exact .inl rfl
  | keyboardByte hc => exact .inr (.inl ⟨hc, _, rfl⟩)
  | scripted hc => exact .inr (.inr ⟨_, hc⟩)

theorem HandlerEffect.kbd {s t : State} {call : HandlerCall} (h : HandlerEffect s call t) :
    t.kbd = s.kbd ∨ s.cfg.spi.client = .keyboard := by
  cases h with
  | null => exact .inl rfl
  | keyboardSelect hc | keyboardDeselect hc | keyboardByte hc => exact .inr hc
  | scripted hc hrun =>
    obtain ⟨hkbd, -⟩ := scriptedCall_keeps hrun
    exact .inl (by simpa using hkbd)

theorem Effect.aggr_writers {i : Instr} {s t : State} (h : Effect s i t) (hne : t.aggr ≠ s.aggr) :
    (∃ j raw, i = .src j raw) ∨ (∃ b, i = .kbd b) ∨ i = .rst ∨
      (s.cfg.spi.client = .keyboard ∧ ∃ v, i = .clk v) ∨
      ((∃ p, s.cfg.spi.client = .scripted p) ∧ ∃ v, i = .sel v ∨ i = .clk v) := by
  cases h with
  | handler hcall heff =>
    obtain heq | ⟨hc, rx, rfl⟩ | ⟨p, hc⟩ := heff.aggr
    · exact absurd (heq.trans (atHandler_aggr i s)) hne
    · obtain ⟨level, rfl, -⟩ := eq_clk_of_onByteExchanged hcall
      exact .inr (.inr (.inr (.inl ⟨hc, level, rfl⟩)))
    · rw [atHandler_cfg] at hc
      obtain ⟨level, rfl, -⟩ | ⟨level, rfl, -⟩ := sel_or_clk_of_handlerCalled hcall
      · exact .inr (.inr (.inr (.inr ⟨⟨p, hc⟩, level, .inl rfl⟩)))
      · exact .inr (.inr (.inr (.inr ⟨⟨p, hc⟩, level, .inr rfl⟩)))
  | held | mosi | miso | arm | irq => exact absurd rfl hne
  | bit => exact absurd (by simp) hne
  | src => exact .inl ⟨_, _, rfl⟩
  | kbd => exact .inr (.inl ⟨_, rfl⟩)
  | rst => exact .inr (.inr (.inl rfl))

theorem Effect.kbd_writers {i : Instr} {s t : State} (h : Effect s i t) (hne : t.kbd ≠ s.kbd) :
    i = .rst ∨ (s.cfg.spi.client = .keyboard ∧ ((∃ v, i = .sel v ∨ i = .clk v) ∨ ∃ b, i = .kbd b)) := by
  cases h with
  | handler hcall heff =>
    obtain heq | hc := heff.kbd
    · exact absurd (heq.trans (atHandler_kbd i s)) hne
    · rw [atHandler_cfg] at hc
      obtain ⟨level, rfl, -⟩ | ⟨level, rfl, -⟩ := sel_or_clk_of_handlerCalled hcall
      · exact .inr ⟨hc, .inl ⟨level, .inl rfl⟩⟩
      · exact .inr ⟨hc, .inl ⟨level, .inr rfl⟩⟩
  | held | mosi | miso | arm | irq => exact absurd rfl hne
  | bit => exact absurd (by simp) hne
  | src hsrc =>
    obtain ⟨-, rfl⟩ := setSource_eq_next.1 hsrc
    exact absurd (by simp) hne
  | kbd hc => exact .inr ⟨hc, .inr ⟨_, rfl⟩⟩
  | rst => exact .inl rfl

/-- Settles O43, field by field. -/
theorem onlyTheListedOperationsWrite : Obligations.OnlyTheListedOperationsWrite := by
  intro i s t h
  have heffect := effect_of_exec h
  obtain ⟨hsel, hclk, hmosi, hmiso, hpending⟩ := heffect.line_writers
  obtain ⟨hrecv, hsend, hcounts⟩ := heffect.xchg_writers
  exact ⟨hsel, hclk, hmosi, hmiso, hrecv, hsend, hcounts, heffect.aggr_writers, heffect.kbd_writers, hpending⟩

/-! ## sel -/

theorem recompute_setSel (v : Level) (s : State) : recompute (setSel v s) = setSel v (recompute s) := by
  rw [recompute_eq, recompute_eq]
  rfl

theorem setSource_setSel {i : SrcIdx} {raw : Level} {s t : State} (h : setSource i raw s = .next t) (v : Level) :
    setSource i raw (setSel v s) = .next (setSel v t) := by
  obtain ⟨hi, rfl⟩ := setSource_eq_next.1 h
  exact setSource_eq_next.2 ⟨hi, recompute_setSel v (setFlag i (logicalFlag s.cfg.agg i raw) s)⟩

/-- The operations that are the same selected or not, RST apart, which clears `sel` (40_line_ops.md, its summary). -/
theorem exec_setSel {i : Instr} {s t : State} (hline : ∀ w, i ≠ .sel w ∧ i ≠ .clk w ∧ i ≠ .mosi w) (hrst : i ≠ .rst)
    (h : exec i s = .next t) (v : Level) : exec i (setSel v s) = .next (setSel v t) := by
  cases i with
  | sel w => exact absurd rfl (hline w).1
  | clk w => exact absurd rfl (hline w).2.1
  | mosi w => exact absurd rfl (hline w).2.2
  | miso | arm | irq => cases h; rfl
  | src j raw => exact setSource_setSel h v
  | kbd b =>
    obtain ⟨hc, hirq⟩ := execKbd_eq_next h
    exact (exec_kbd_of_keyboard (s := setSel v s) hc b).trans (setSource_setSel hirq v)
  | rst => exact absurd rfl hrst

/-- Settles O44. -/
theorem selectDoesNotMatterToTheOthers : Obligations.SelectDoesNotMatterToTheOthers := by
  intro i s t v hline h
  by_cases hrst : i = .rst
  · subst hrst
    cases h
    rfl
  · rw [if_neg hrst]
    exact exec_setSel hline hrst h v

/-! ## Input names and output polarity -/

/-- The state under other input names and another output polarity (43_interrupt_aggregator.md R200, R206). -/
def relabel (names : List String) (low : Level) (s : State) : State :=
  { s with cfg := { s.cfg with agg := { s.cfg.agg with srcName := names, outActiveLow := low } } }

/-- What an operation answers, under other names and another polarity. -/
def relabelled (names : List String) (low : Level) (o : Host.Outcome State Fault Refusal) :
    Host.Outcome State Fault Refusal :=
  andThen o fun t => .next (relabel names low t)

section
variable (names : List String) (low : Level)

theorem recompute_relabel (s : State) : recompute (relabel names low s) = relabel names low (recompute s) := by
  rw [recompute_eq, recompute_eq]
  rfl

theorem setSource_relabel (i : SrcIdx) (raw : Level) (s : State) :
    setSource i raw (relabel names low s) = relabelled names low (setSource i raw s) := by
  obtain ⟨hi, h⟩ | ⟨hi, h⟩ := setSource_cases i raw s
  · rw [h]
    exact setSource_eq_next.2 ⟨hi, recompute_relabel names low (setFlag i (logicalFlag s.cfg.agg i raw) s)⟩
  · rw [h]
    exact setSource_of_not_has (s := relabel names low s) hi raw

theorem runActions_relabel (as : List ClientAction) (s : State) :
    runActions as (relabel names low s) = relabelled names low (runActions as s) := by
  induction as generalizing s with
  | nil => rfl
  | cons a as ih =>
    cases a with
    | reenter what => rfl
    | setSource i raw =>
      rw [runActions, runActions, setSource_relabel]
      cases h : setSource i raw s with
      | next t => exact ih t
      | fault r => rfl
      | refused r => rfl

theorem setKirq_relabel (v : Level) (s : State) :
    setKirq v (relabel names low s) = relabelled names low (setKirq v s) :=
  setSource_relabel names low s.cfg.spi.kbdSrc (v ^^ s.cfg.agg.inv[s.cfg.spi.kbdSrc])
    (setKbd { s.kbd with kirq := v } s)

theorem clearBuffer_relabel (s : State) :
    clearBuffer (relabel names low s) = relabelled names low (clearBuffer s) :=
  setKirq_relabel names low false (setKbd { s.kbd with scancodeBuffer := 0, bufferFull := false } s)

theorem keyboardByte_relabel (rx : Byte) (s : State) :
    keyboardByte rx (relabel names low s) =
      andThen (keyboardByte rx s) fun r => .next (relabel names low r.1, r.2) := by
  have hclear : ∀ (k : KeyboardState) (b : Byte),
      (andThen (clearBuffer (setKbd k (relabel names low s))) fun t => .next (t, b)) =
        andThen (andThen (clearBuffer (setKbd k s)) fun t => .next (t, b)) fun r =>
          (.next (relabel names low r.1, r.2) : Host.Outcome (State × Byte) Fault Refusal) := by
    intro k b
    rw [show setKbd k (relabel names low s) = relabel names low (setKbd k s) from rfl, clearBuffer_relabel]
    cases clearBuffer (setKbd k s) <;> rfl
  have hkbd : (relabel names low s).kbd = s.kbd := rfl
  cases hk : s.kbd.kstate <;> simp only [keyboardByte, hkbd, hk]
  case newlySelected =>
    split
    · simp only [keyboardControl, controlCode]
      split
      · exact hclear _ _
      · split <;> rfl
    · exact hclear _ _
  all_goals rfl

theorem replyTaken_relabel (call : HandlerCall) (t : State) (r : Option Byte) :
    replyTaken call (relabel names low t, r) = relabel names low (replyTaken call (t, r)) := by
  cases call <;> cases r <;> rfl

theorem scriptedCall_relabel (p : ClientScript) (call : HandlerCall) (s : State) :
    scriptedCall p call (relabel names low s) =
      andThen (scriptedCall p call s) fun r => .next (relabel names low r.1, r.2) := by
  have hrun := runActions_relabel names low (scriptAnswer p s.clientState call).1.actions
    (setClientState (scriptAnswer p s.clientState call).2 s)
  refine (congrArg (andThen · fun t => .next (t, (scriptAnswer p s.clientState call).1.reply)) hrun).trans ?_
  rw [scriptedCall]
  cases runActions (scriptAnswer p s.clientState call).1.actions
    (setClientState (scriptAnswer p s.clientState call).2 s) <;> rfl

theorem runHandler_relabel (call : HandlerCall) (s : State) :
    runHandler call (relabel names low s) = relabelled names low (runHandler call s) := by
  have hclient : (relabel names low s).cfg.spi.client = s.cfg.spi.client := rfl
  cases hc : s.cfg.spi.client with
  | null => rw [runHandler_null hc, runHandler_null (hclient.trans hc)]; rfl
  | keyboard =>
    cases call with
    | onSelect | onDeselect => simp only [runHandler, onSelect, onDeselect, hclient, hc]; rfl
    | onByteExchanged rx =>
      simp only [runHandler, onByteExchanged, hclient, hc, keyboardByte_relabel]
      cases keyboardByte rx s <;> rfl
  | scripted p =>
    rw [runHandler_scripted hc, runHandler_scripted (hclient.trans hc), scriptedCall_relabel]
    cases scriptedCall p call s with
    | next r => exact congrArg _ (replyTaken_relabel names low call r.1 r.2)
    | fault r => rfl
    | refused r => rfl

theorem bitAction_relabel (level : Level) (s : State) :
    bitAction level (setClk level (relabel names low s)) = relabel names low (bitAction level (setClk level s)) := by
  cases hrole : sampleRole s.cfg.spi level with
  | true =>
    rw [bitAction_of_sample (s := setClk level s) hrole,
      bitAction_of_sample (s := setClk level (relabel names low s)) hrole]
    rfl
  | false =>
    rw [bitAction_of_shift (s := setClk level s) hrole,
      bitAction_of_shift (s := setClk level (relabel names low s)) hrole]
    rfl

/-- Where no handler is called. -/
theorem exec_relabel_of_no_handler {i : Instr} {s : State} (hnone : handlerCalled i s = none) :
    exec i (relabel names low s) = relabelled names low (exec i s) := by
  cases i with
  | sel level =>
    have hsel : level = s.line.sel := by simpa [handlerCalled] using hnone
    rw [exec_sel_of_eq hsel, exec_sel_of_eq (s := relabel names low s) hsel]
    rfl
  | clk level =>
    have he : endsByte level s = false := by simpa [handlerCalled] using hnone
    cases hq : qualifies level s with
    | false =>
      rw [exec_clk_of_not_qualifies hq, exec_clk_of_not_qualifies (s := relabel names low s) hq]
      rfl
    | true =>
      rw [exec_clk_of_not_endsByte hq he, exec_clk_of_not_endsByte (s := relabel names low s) hq he,
        bitAction_relabel]
      rfl
  | mosi level =>
    cases hsel : s.line.sel with
    | false =>
      rw [exec_mosi_of_deselected hsel, exec_mosi_of_deselected (s := relabel names low s) hsel]
      rfl
    | true =>
      rw [exec_mosi_of_selected hsel, exec_mosi_of_selected (s := relabel names low s) hsel]
      rfl
  | miso | arm | irq | rst => rfl
  | src j raw => exact setSource_relabel names low j raw s
  | kbd b =>
    by_cases hc : s.cfg.spi.client = .keyboard
    · rw [exec_kbd_of_keyboard hc, exec_kbd_of_keyboard (s := relabel names low s) hc]
      exact setKirq_relabel names low true (setKbd { s.kbd with scancodeBuffer := b, bufferFull := true } s)
    · rw [exec_kbd_of_not_keyboard hc, exec_kbd_of_not_keyboard (s := relabel names low s) hc]
      rfl

theorem exec_relabel (i : Instr) (s : State) :
    exec i (relabel names low s) = relabelled names low (exec i s) := by
  have hcalled : handlerCalled i (relabel names low s) = handlerCalled i s := by cases i <;> rfl
  cases hcall : handlerCalled i s with
  | some call =>
    have hat : atHandler i (relabel names low s) = relabel names low (atHandler i s) := by
      cases i with
      | sel level => cases level <;> rfl
      | _ => rfl
    rw [exec_of_handlerCalled hcall, exec_of_handlerCalled (hcalled.trans hcall), hat, runHandler_relabel]
  | none => exact exec_relabel_of_no_handler names low hcall

end

/-- Settles O45: `exec_relabel` at a next state, and the pin's own formula. -/
theorem namesAndOutputPolarityHaveNoEffect : Obligations.NamesAndOutputPolarityHaveNoEffect := by
  intro names low f i s
  refine ⟨fun t h => ?_, ?_⟩
  · exact (exec_relabel names low i s).trans (by rw [h]; rfl)
  · show (s.aggr.agg ^^ low) = _
    cases low <;> cases s.aggr.agg <;> rfl

end Sys2Proof.Machine
end

section
/-! The bit helpers and a whole byte (41_bit_engine.md R134 to R137, R148 to R150; 30_encoding.md R71 to R75). One CYCR
is three operations up to its trailing edge and that edge; eight of them exchange a byte. -/
namespace Sys2Proof.Machine

/-! ## Bits of a byte -/

theorem advN_msbFirst (n : Nat) (s : Byte) : advN .msbFirst n s = s <<< n := by
  induction n generalizing s with
  | zero => exact (BitVec.shiftLeft_zero s).symm
  | succ n ih => rw [advN, ih, adv, ← BitVec.shiftLeft_add, Nat.add_comm]

theorem advN_lsbFirst (n : Nat) (s : Byte) : advN .lsbFirst n s = s >>> n := by
  induction n generalizing s with
  | zero => exact (BitVec.ushiftRight_zero s).symm
  | succ n ih => rw [advN, ih, adv, ← BitVec.shiftRight_add, Nat.add_comm]

theorem out_eq_head_advN (o : BitOrder) (s : Byte) (k : Fin 8) : out o s k = head o (advN o k.val s) := by
  have hk := k.isLt
  cases o with
  | msbFirst =>
    simp only [out, head, advN_msbFirst, BitVec.getLsbD_shiftLeft]
    rw [decide_eq_true (by decide), decide_eq_false (by omega)]
    rfl
  | lsbFirst => simp [out, head, advN_lsbFirst]

theorem advN_eight (o : BitOrder) (s : Byte) : advN o 8 s = 0x00 := by
  cases o with
  | msbFirst => rw [advN_msbFirst, BitVec.shiftLeft_eq_zero (Nat.le_refl 8)]; rfl
  | lsbFirst => rw [advN_lsbFirst, BitVec.ushiftRight_eq_zero (Nat.le_refl 8)]; rfl

theorem getLsbD_levelByte (v : Level) (i : Nat) : (levelByte v).getLsbD i = (decide (i = 0) && v) := by
  cases i with
  | zero => cases v <;> rfl
  | succ i => simp [levelByte, BitVec.getLsbD_setWidth]

theorem out_shin_last (o : BitOrder) (s : Byte) (v : Level) : out o (shin o s v) 7 = v := by
  cases o with
  | msbFirst =>
    show (s <<< 1 ||| levelByte v).getLsbD 0 = v
    rw [BitVec.getLsbD_or, BitVec.getLsbD_shiftLeft, getLsbD_levelByte]
    simp only [Nat.zero_lt_one, decide_true, Bool.not_true, Bool.and_false, Bool.false_and, Bool.false_or,
      Bool.true_and]
  | lsbFirst =>
    show (s >>> 1 ||| levelByte v <<< 7).getLsbD 7 = v
    rw [BitVec.getLsbD_or, BitVec.getLsbD_ushiftRight, BitVec.getLsbD_of_ge s _ (by decide), BitVec.getLsbD_shiftLeft,
      getLsbD_levelByte]
    exact Bool.false_or v

theorem out_shin_of_lt (o : BitOrder) (s : Byte) (v : Level) {k : Nat} (hk : k < 7) :
    out o (shin o s v) ⟨k, by omega⟩ = out o s ⟨k + 1, by omega⟩ := by
  cases o with
  | msbFirst =>
    simp only [out, shin, BitVec.getLsbD_or, BitVec.getLsbD_shiftLeft, getLsbD_levelByte]
    rw [decide_eq_true (show 7 - k < 8 by omega), decide_eq_false (show ¬7 - k < 1 by omega),
      decide_eq_false (show ¬7 - k = 0 by omega), show 7 - k - 1 = 7 - (k + 1) by omega]
    simp
  | lsbFirst =>
    simp only [out, shin, BitVec.getLsbD_or, BitVec.getLsbD_ushiftRight, BitVec.getLsbD_shiftLeft, getLsbD_levelByte]
    rw [decide_eq_true (show k < 7 by omega), Nat.add_comm 1 k]
    simp

@[simp] theorem length_outBits (o : BitOrder) (s : Byte) : (outBits o s).length = 8 := by simp [outBits]

theorem getElem_outBits (o : BitOrder) (s : Byte) {k : Nat} (hk : k < (outBits o s).length) :
    (outBits o s)[k] = out o s ⟨k, by simpa using hk⟩ := by
  simp [outBits]

/-- A received bit enters behind the others. -/
theorem outBits_shin (o : BitOrder) (s : Byte) (v : Level) : outBits o (shin o s v) = (outBits o s).tail ++ [v] := by
  refine List.ext_getElem (by simp) fun k h1 h2 => ?_
  rw [getElem_outBits, List.getElem_append]
  split
  · next hk =>
    rw [List.getElem_tail, getElem_outBits]
    exact out_shin_of_lt o s v (by simpa using hk)
  · next hk =>
    obtain rfl : k = 7 := by simp at h1 hk; omega
    simpa using out_shin_last o s v

/-- Received bits push out as many of the byte's own, first bits first. -/
theorem outBits_shinAll (o : BitOrder) (s : Byte) (vs : List Level) :
    outBits o (shinAll o s vs) = (outBits o s ++ vs).drop vs.length := by
  induction vs generalizing s with
  | nil => simp [shinAll]
  | cons v vs ih =>
    have hcons : outBits o s = out o s 0 :: (outBits o s).tail := rfl
    rw [shinAll, ih, outBits_shin, hcons]
    simp

theorem outBits_shinAll_of_length {vs : List Level} (h : vs.length = 8) (o : BitOrder) (s : Byte) :
    outBits o (shinAll o s vs) = vs := by
  rw [outBits_shinAll, List.drop_left' (by rw [length_outBits, h])]

/-- Settles O27. -/
theorem bitHelpersCarryEveryBit : Obligations.BitHelpersCarryEveryBit :=
  ⟨out_eq_head_advN, advN_eight, fun o s _ h => outBits_shinAll_of_length h o s⟩

theorem getLsbD_eq_out (o : BitOrder) (s : Byte) {i : Nat} (hi : i < 8) :
    s.getLsbD i = out o s (match o with
      | .msbFirst => ⟨7 - i, by omega⟩
      | .lsbFirst => ⟨i, hi⟩) := by
  cases o with
  | msbFirst => exact congrArg _ (show i = 7 - (7 - i) by omega)
  | lsbFirst => rfl

theorem outBits_injective (o : BitOrder) {s t : Byte} (h : outBits o s = outBits o t) : s = t := by
  have hout : ∀ k, out o s k = out o t k := fun k => by
    have hk := congrArg (·[k.val]?) h
    simpa [getElem_outBits, List.getElem?_eq_getElem] using hk
  refine BitVec.eq_of_getLsbD_eq fun i hi => ?_
  rw [getLsbD_eq_out o s hi, getLsbD_eq_out o t hi, hout]

/-- Eight received bits replace the whole byte (41_bit_engine.md R136, R137). -/
theorem shinAll_outBits (o : BitOrder) (s m : Byte) : shinAll o s (outBits o m) = m :=
  outBits_injective o (outBits_shinAll_of_length (length_outBits o m) o s)

/-- The levels n shift steps drive, from the head of s on. -/
def driven (o : BitOrder) : Nat → Byte → List Level
  | 0, _ => []
  | n + 1, s => head o s :: driven o n (adv o s)

theorem driven_eight (o : BitOrder) (s : Byte) : driven o 8 s = outBits o s := by
  have hbits : outBits o s = (List.finRange 8).map fun k => head o (advN o k.val s) :=
    List.map_congr_left fun k _ => out_eq_head_advN o s k
  exact hbits.symm

/-! ## One bit -/

theorem sampleRole_act (c : SpiConfig) : sampleRole c (act c) = !cpha c := by
  simp only [sampleRole, act, cpol, cpha]
  cases c.mode.getLsbD 1 <;> cases c.mode.getLsbD 0 <;> rfl

theorem sampleRole_idle (c : SpiConfig) : sampleRole c (idle c) = cpha c := by
  simp only [sampleRole, idle, cpol, cpha]
  cases c.mode.getLsbD 1 <;> cases c.mode.getLsbD 0 <;> rfl

theorem act_ne_idle (c : SpiConfig) : act c ≠ idle c := by
  simp only [act, idle]
  cases cpol c <;> decide

theorem qualifies_of_ne {s : State} {level : Level} (hsel : s.line.sel = true) (hne : level ≠ s.line.clk) :
    qualifies level s = true := by
  simp [qualifies, hsel, hne]

theorem exec_clk_sample {s : State} {level : Level} (hsel : s.line.sel = true) (hne : level ≠ s.line.clk)
    (hrole : sampleRole s.cfg.spi level = true) (hmore : ¬(s.xchg.recvCount = 7 ∧ s.xchg.sendCount = 8)) :
    exec (.clk level) s = .next (sample (setClk level s)) := by
  rw [← bitAction_of_sample (s := setClk level s) hrole]
  exact exec_clk_of_not_endsByte (qualifies_of_ne hsel hne) (by simp [endsByte, hrole, hmore])

theorem exec_clk_shift {s : State} {level : Level} (hsel : s.line.sel = true) (hne : level ≠ s.line.clk)
    (hrole : sampleRole s.cfg.spi level = false) (hmore : ¬(s.xchg.recvCount = 8 ∧ s.xchg.sendCount = 7)) :
    exec (.clk level) s = .next (shift (setClk level s)) := by
  rw [← bitAction_of_shift (s := setClk level s) hrole]
  exact exec_clk_of_not_endsByte (qualifies_of_ne hsel hne) (by simp [endsByte, hrole, hmore])

/-- Selected, the clock at rest, n bits of the byte exchanged, and the next one driven where `CPHA = 0`. -/
structure Aligned (n : Nat) (s : State) : Prop where
  sel : s.line.sel = true
  clk : s.line.clk = idle s.cfg.spi
  recv : s.xchg.recvCount = n
  send : s.xchg.sendCount = n
  miso : MisoInv s

/-- CYCR without its trailing edge (30_encoding.md R72). -/
def cycrLead (c : SpiConfig) (v : Level) : List Instr :=
  if cpha c then [.mosi v, .clk (act c), .miso] else [.mosi v, .miso, .clk (act c)]

theorem cycr_eq (c : SpiConfig) (v : Level) : cycr c v = cycrLead c v ++ [.clk (idle c)] := by
  unfold cycr cycrLead
  split <;> rfl

/-- What the operations of `cycrLead` do from an aligned state: the first edge has shifted where `CPHA = 1` and sampled
where `CPHA = 0`, and the master has read the head of `send_shift`. -/
def cycleLead (v : Level) (s : State) : State :=
  { s with
    line := { s.line with
      clk := act s.cfg.spi, mosi := v, miso := head s.cfg.spi.bitOrder s.xchg.sendShift }
    xchg := if cpha s.cfg.spi then
        { s.xchg with
          sendShift := adv s.cfg.spi.bitOrder s.xchg.sendShift, sendCount := s.xchg.sendCount + 1 }
      else
        { s.xchg with
          recvShift := shin s.cfg.spi.bitOrder s.xchg.recvShift v, recvCount := s.xchg.recvCount + 1 }
    trace := s.trace ++ [.misoRead (head s.cfg.spi.bitOrder s.xchg.sendShift)] }

/-- What a whole CYCR does from an aligned state, before the byte's last bit. -/
def cycled (v : Level) (s : State) : State :=
  { s with
    line := { s.line with
      mosi := v
      miso := head s.cfg.spi.bitOrder
        (if cpha s.cfg.spi then s.xchg.sendShift else adv s.cfg.spi.bitOrder s.xchg.sendShift) }
    xchg := ⟨shin s.cfg.spi.bitOrder s.xchg.recvShift v, adv s.cfg.spi.bitOrder s.xchg.sendShift,
      s.xchg.recvCount + 1, s.xchg.sendCount + 1⟩
    trace := s.trace ++ [.misoRead (head s.cfg.spi.bitOrder s.xchg.sendShift)] }

section
variable {n : Nat} {s : State}

theorem runOps_cycrLead (h : Aligned n s) (hn : n ≤ 7) (v : Level) :
    runOps (cycrLead s.cfg.spi v) s = .next (cycleLead v s) := by
  obtain ⟨hsel, hclk, hrecv, hsend, hmiso⟩ := h
  have hne : act s.cfg.spi ≠ s.line.clk := hclk ▸ act_ne_idle s.cfg.spi
  cases hpha : cpha s.cfg.spi with
  | true =>
    have hshift := exec_clk_shift (s := setMosi v s) hsel hne (by rw [setMosi_cfg, sampleRole_act, hpha]; rfl)
      (by simp [hrecv]; omega)
    simp only [cycrLead, hpha, if_true, runOps, exec_mosi_of_selected hsel, andThen_next, hshift, exec_miso]
    simp only [shift, setSendCount, setMiso, setSendShift, setClk, setMosi, emit, cycleLead, hpha, if_true]
  | false =>
    have hsample := exec_clk_sample (s := emit (.misoRead s.line.miso) (setMosi v s)) hsel hne
      (by rw [emit_cfg, setMosi_cfg, sampleRole_act, hpha]; rfl) (by simp [hsend]; omega)
    simp only [cycrLead, hpha, Bool.false_eq_true, if_false, runOps, exec_mosi_of_selected hsel, andThen_next,
      exec_miso, setMosi_line, hsample]
    simp only [sample, setRecvCount, setRecvShift, setClk, setMosi, emit, cycleLead, hpha, Bool.false_eq_true,
      if_false, hmiso hpha]

theorem qualifies_cycleLead (h : Aligned n s) (v : Level) :
    qualifies (idle s.cfg.spi) (cycleLead v s) = true :=
  qualifies_of_ne h.sel (act_ne_idle s.cfg.spi).symm

theorem endsByte_cycleLead (h : Aligned n s) (v : Level) :
    endsByte (idle s.cfg.spi) (cycleLead v s) = decide (n = 7) := by
  have hrole := sampleRole_idle s.cfg.spi
  rw [endsByte, qualifies_cycleLead h]
  cases hpha : cpha s.cfg.spi <;> simp [cycleLead, hrole, hpha, h.recv, h.send]

theorem receivedByte_cycleLead (v : Level) (s : State) :
    receivedByte (idle s.cfg.spi) (cycleLead v s) = shin s.cfg.spi.bitOrder s.xchg.recvShift v := by
  have hrole := sampleRole_idle s.cfg.spi
  cases hpha : cpha s.cfg.spi <;> simp [receivedByte, cycleLead, hrole, hpha]

theorem bitAction_cycleLead (h : Aligned n s) (v : Level) :
    bitAction (idle s.cfg.spi) (setClk (idle s.cfg.spi) (cycleLead v s)) = cycled v s := by
  have hclk := h.clk
  have hrole := sampleRole_idle s.cfg.spi
  cases hpha : cpha s.cfg.spi with
  | true =>
    rw [bitAction_of_sample (s := setClk _ (cycleLead v s)) (hrole.trans hpha)]
    simp only [sample, setRecvCount, setRecvShift, setClk, cycleLead, cycled, hpha, if_true, ← hclk]
  | false =>
    rw [bitAction_of_shift (s := setClk _ (cycleLead v s)) (hrole.trans hpha)]
    simp only [shift, setSendCount, setMiso, setSendShift, setClk, cycleLead, cycled, hpha, Bool.false_eq_true,
      if_false, ← hclk]

theorem runOps_append (is js : List Instr) (s : State) :
    runOps (is ++ js) s = andThen (runOps is s) (runOps js) := by
  induction is generalizing s with
  | nil => rfl
  | cons i is ih =>
    simp only [List.cons_append, runOps]
    cases exec i s <;> simp [andThen, ih]

theorem runOps_singleton (i : Instr) (s : State) : runOps [i] s = exec i s := by
  simp only [runOps]
  cases exec i s <;> rfl

theorem runOps_cycr (h : Aligned n s) (hn : n < 7) (v : Level) :
    runOps (cycr s.cfg.spi v) s = .next (cycled v s) := by
  have hexec := exec_clk_of_not_endsByte (qualifies_cycleLead h v)
    ((endsByte_cycleLead h v).trans (decide_eq_false (by omega)))
  rw [cycr_eq, runOps_append, runOps_cycrLead h (by omega), andThen_next, runOps_singleton, hexec,
    bitAction_cycleLead h]

theorem Aligned.cycled (h : Aligned n s) (v : Level) : Aligned (n + 1) (cycled v s) where
  sel := h.sel
  clk := h.clk
  recv := congrArg (· + 1) h.recv
  send := congrArg (· + 1) h.send
  miso hpha := by
    have hpha : cpha s.cfg.spi = false := hpha
    simp [Machine.cycled, hpha]

end

/-! ## A byte -/

/-- CYCR for each bit of a list, before the byte's last bit. -/
def cycleAll : List Level → State → State
  | [], s => s
  | v :: vs, s => cycleAll vs (cycled v s)

theorem cycleAll_eq (vs : List Level) (s : State) :
    cycleAll vs s = { s with
      line := { s.line with mosi := (cycleAll vs s).line.mosi, miso := (cycleAll vs s).line.miso }
      xchg := ⟨shinAll s.cfg.spi.bitOrder s.xchg.recvShift vs, advN s.cfg.spi.bitOrder vs.length s.xchg.sendShift,
        s.xchg.recvCount + vs.length, s.xchg.sendCount + vs.length⟩
      trace := s.trace ++ (driven s.cfg.spi.bitOrder vs.length s.xchg.sendShift).map .misoRead } := by
  induction vs generalizing s with
  | nil => simp [cycleAll, shinAll, advN, driven]
  | cons v vs ih =>
    refine (ih (cycled v s)).trans ?_
    simp only [cycleAll, cycled, shinAll, advN, driven, List.length_cons, List.map_cons, List.append_assoc,
      List.singleton_append, Nat.add_assoc, Nat.add_comm 1]

theorem Aligned.cycleAll {n : Nat} {s : State} (h : Aligned n s) (vs : List Level) :
    Aligned (n + vs.length) (cycleAll vs s) := by
  induction vs generalizing n s with
  | nil => exact h
  | cons v vs ih =>
    have hcycled := ih (h.cycled v)
    rwa [Nat.add_assoc, Nat.add_comm 1] at hcycled

theorem runOps_flatMap_cycr {n : Nat} {s : State} (h : Aligned n s) {vs : List Level} (hn : n + vs.length ≤ 7) :
    runOps (vs.flatMap (cycr s.cfg.spi)) s = .next (cycleAll vs s) := by
  induction vs generalizing n s with
  | nil => rfl
  | cons v vs ih =>
    rw [List.length_cons] at hn
    rw [List.flatMap_cons, runOps_append, runOps_cycr h (by omega), andThen_next]
    exact ih (h.cycled v) (by omega)

/-- The bits of a byte but for the last one. -/
def firstBits (o : BitOrder) (m : Byte) : List Level := (outBits o m).dropLast

theorem outBits_eq_firstBits (o : BitOrder) (m : Byte) : outBits o m = firstBits o m ++ [out o m 7] := rfl

theorem length_firstBits (o : BitOrder) (m : Byte) : (firstBits o m).length = 7 := by simp [firstBits]

/-- XFER without the edge that ends the byte. -/
def xferLead (c : SpiConfig) (m : Byte) : List Instr :=
  (firstBits c.bitOrder m).flatMap (cycr c) ++ cycrLead c (out c.bitOrder m 7)

theorem xfer_eq (c : SpiConfig) (m : Byte) : xfer c m = xferLead c m ++ [.clk (idle c)] := by
  rw [xfer, outBits_eq_firstBits, List.flatMap_append, List.flatMap_singleton, cycr_eq, ← List.append_assoc]
  rfl

/-- The state XFER m is in before the edge that ends the byte. -/
def beforeByteEnd (m : Byte) (s : State) : State :=
  cycleLead (out s.cfg.spi.bitOrder m 7) (cycleAll (firstBits s.cfg.spi.bitOrder m) s)

section
variable (vs : List Level) (s : State)

@[simp] theorem cycleAll_cfg : (cycleAll vs s).cfg = s.cfg := by rw [cycleAll_eq]
@[simp] theorem cycleAll_aggr : (cycleAll vs s).aggr = s.aggr := by rw [cycleAll_eq]
@[simp] theorem cycleAll_kbd : (cycleAll vs s).kbd = s.kbd := by rw [cycleAll_eq]
@[simp] theorem cycleAll_clientState : (cycleAll vs s).clientState = s.clientState := by rw [cycleAll_eq]
@[simp] theorem cycleAll_draws : (cycleAll vs s).draws = s.draws := by rw [cycleAll_eq]
@[simp] theorem cycleAll_pending : (cycleAll vs s).pending = s.pending := by rw [cycleAll_eq]
@[simp] theorem cycleAll_sel : (cycleAll vs s).line.sel = s.line.sel := by rw [cycleAll_eq]
theorem cycleAll_recvShift :
    (cycleAll vs s).xchg.recvShift = shinAll s.cfg.spi.bitOrder s.xchg.recvShift vs := by rw [cycleAll_eq]
theorem cycleAll_trace : (cycleAll vs s).trace =
    s.trace ++ (driven s.cfg.spi.bitOrder vs.length s.xchg.sendShift).map .misoRead := by rw [cycleAll_eq]

theorem cycleAll_concat (v : Level) : cycleAll (vs ++ [v]) s = cycled v (cycleAll vs s) := by
  induction vs generalizing s with
  | nil => rfl
  | cons w vs ih => exact ih (cycled w s)

end

section
variable {s : State} (m : Byte)

theorem runOps_xferLead (h : Aligned 0 s) : runOps (xferLead s.cfg.spi m) s = .next (beforeByteEnd m s) := by
  have hfirst := runOps_flatMap_cycr h (vs := firstBits s.cfg.spi.bitOrder m) (by simp [length_firstBits])
  have hlast := runOps_cycrLead (h.cycleAll (firstBits s.cfg.spi.bitOrder m)) (by simp [length_firstBits])
    (out s.cfg.spi.bitOrder m 7)
  rw [cycleAll_cfg] at hlast
  rw [xferLead, runOps_append, hfirst, andThen_next, hlast]
  rfl

theorem endsByte_beforeByteEnd (h : Aligned 0 s) : endsByte (idle s.cfg.spi) (beforeByteEnd m s) = true := by
  have hends := endsByte_cycleLead (h.cycleAll (firstBits s.cfg.spi.bitOrder m)) (out s.cfg.spi.bitOrder m 7)
  rw [cycleAll_cfg, length_firstBits] at hends
  exact hends

/-- All eight bits of m have been shifted in (41_bit_engine.md R149). -/
theorem receivedByte_beforeByteEnd : receivedByte (idle s.cfg.spi) (beforeByteEnd m s) = m := by
  have hbyte := receivedByte_cycleLead (out s.cfg.spi.bitOrder m 7) (cycleAll (firstBits s.cfg.spi.bitOrder m) s)
  rw [cycleAll_cfg] at hbyte
  calc receivedByte (idle s.cfg.spi) (beforeByteEnd m s)
      = (cycled (out s.cfg.spi.bitOrder m 7) (cycleAll (firstBits s.cfg.spi.bitOrder m) s)).xchg.recvShift := by
        rw [beforeByteEnd, hbyte, cycled, cycleAll_cfg]
    _ = shinAll s.cfg.spi.bitOrder s.xchg.recvShift (outBits s.cfg.spi.bitOrder m) := by
        rw [← cycleAll_concat, ← outBits_eq_firstBits, cycleAll_recvShift]
    _ = m := shinAll_outBits ..

/-- The master has read all eight bits of the armed byte (41_bit_engine.md R149). -/
theorem beforeByteEnd_trace : (beforeByteEnd m s).trace =
    s.trace ++ (outBits s.cfg.spi.bitOrder s.xchg.sendShift).map .misoRead := by
  calc (beforeByteEnd m s).trace
      = (cycled (out s.cfg.spi.bitOrder m 7) (cycleAll (firstBits s.cfg.spi.bitOrder m) s)).trace := rfl
    _ = s.trace ++ (driven s.cfg.spi.bitOrder 8 s.xchg.sendShift).map .misoRead := by
        rw [← cycleAll_concat, ← outBits_eq_firstBits, cycleAll_trace, length_outBits]
    _ = _ := by rw [driven_eight]

theorem byteEnd_beforeByteEnd (hclk : s.line.clk = idle s.cfg.spi) :
    byteEnd (idle s.cfg.spi) (beforeByteEnd m s) = { s with
      line := { s.line with mosi := out s.cfg.spi.bitOrder m 7, miso := false }
      xchg := { recvShift := m, sendShift := 0x00, recvCount := 0, sendCount := 0 }
      trace := s.trace ++ (outBits s.cfg.spi.bitOrder s.xchg.sendShift).map .misoRead ++ [.byteExchanged m] } := by
  rw [byteEnd, receivedByte_beforeByteEnd, beforeByteEnd_trace, ← hclk]
  simp only [beforeByteEnd, cycleLead, cycleAll_cfg, cycleAll_aggr, cycleAll_kbd, cycleAll_clientState, cycleAll_draws,
    cycleAll_pending, cycleAll_sel]

end

/-- Settles O28: seven CYCRs and the lead of the eighth, then the edge that ends the byte. -/
theorem wholeByteExchange : Obligations.WholeByteExchange := by
  intro s t m hsel hclk hmiso hsend hrecv hsent
  subst hsend
  have haligned : Aligned 0 s := ⟨hsel, hclk, hrecv, hsent, fun _ => hmiso⟩
  have hlead := runOps_xferLead m haligned
  have hends := endsByte_beforeByteEnd m haligned
  refine ⟨⟨beforeByteEnd m s, ?_, beforeByteEnd_trace m, hends, receivedByte_beforeByteEnd m, ?_, ?_, ?_, ?_⟩,
    fun hc => ?_⟩
  · rw [xfer_eq, List.dropLast_concat, hlead]
  · exact cycleAll_aggr ..
  · exact cycleAll_kbd ..
  · exact cycleAll_clientState ..
  · exact cycleAll_draws ..
  · obtain ⟨hnull, -, -⟩ := clkEndsByte (beforeByteEnd m s) (idle s.cfg.spi) hends
    have hcfg : (beforeByteEnd m s).cfg = s.cfg := cycleAll_cfg ..
    rw [xfer_eq, runOps_append, hlead, andThen_next, runOps_singleton, hnull (by rw [hcfg, hc])]
    exact congrArg _ (byteEnd_beforeByteEnd m hclk)

/-! ## The pseudo-operations -/

theorem length_flatMap_of_length {α β : Type} {f : α → List β} {n : Nat} (hf : ∀ a, (f a).length = n) (as : List α) :
    (as.flatMap f).length = as.length * n := by
  induction as with
  | nil => exact (Nat.zero_mul n).symm
  | cons a as ih => rw [List.flatMap_cons, List.length_append, hf, ih, List.length_cons, Nat.succ_mul, Nat.add_comm]

theorem length_cycr (c : SpiConfig) (v : Level) : (cycr c v).length = 4 := by
  unfold cycr; split <;> rfl

theorem length_xfer (c : SpiConfig) (m : Byte) : (xfer c m).length = 32 := by
  rw [xfer, length_flatMap_of_length (length_cycr c), length_outBits]

theorem length_xferq (c : SpiConfig) (m : Byte) : (xferq c m).length = 24 := by
  rw [xferq, length_flatMap_of_length (n := 3) fun _ => rfl, length_outBits]

/-- Settles O54: the lengths in general, the worked words by evaluation. -/
theorem xferExpandsAsWorked : Obligations.XferExpandsAsWorked :=
  ⟨fun c m => ⟨length_xfer c m, length_xferq c m⟩, by decide, by decide⟩

end Sys2Proof.Machine
end

section
/-! Boards: an operation at a transceiver is the block's on that transceiver and the shared aggregator
(60_exceptions.md R242, 43_interrupt_aggregator.md R211; log 11). -/
namespace Sys2Proof.Machine

variable {n : Nat}

theorem boardExec_eq_next {k : Fin n} {i : Instr} {b b' : Board n} :
    boardExec k i b = .next b' ↔ ∃ t, exec i (b.block k) = .next t ∧ b.withBlock k t = b' := by
  rw [boardExec, andThen_eq_next]
  simp

section
variable (b : Board n) (k : Fin n) (t : State)

theorem withBlock_unit_same : (b.withBlock k t).units[k] =
    { spi := t.cfg.spi, line := t.line, xchg := t.xchg, kbd := t.kbd, clientState := t.clientState } := by
  simp [Board.withBlock]

theorem withBlock_unit_of_ne {j : Fin n} (hj : j ≠ k) : (b.withBlock k t).units[j] = b.units[j] := by
  have hkj : k.val ≠ j.val := fun h => hj (Fin.ext h.symm)
  simp [Board.withBlock, Vector.getElem_set_ne, hkj]

end

/-- Settles O51. -/
theorem boardTransceiversShareOnlyTheAggregator : Obligations.BoardTransceiversShareOnlyTheAggregator := by
  intro n b b' k i h
  obtain ⟨t, hexec, rfl⟩ := boardExec_eq_next.1 h
  have hcfg : t.cfg = (b.block k).cfg := (effect_of_exec hexec).cfg
  refine ⟨⟨t, hexec, rfl, ?_, ?_, ?_, ?_, rfl, ?_, rfl⟩, fun j hj => withBlock_unit_of_ne b k t hj, rfl, rfl⟩
  · rw [withBlock_unit_same]
  · rw [withBlock_unit_same]
  · rw [withBlock_unit_same]
  · rw [withBlock_unit_same]
  · rw [withBlock_unit_same, hcfg]
    rfl

/-- A block is its transceiver, the aggregator and the draws. -/
theorem block_congr {b c : Board n} {k : Fin n} (hunit : c.units[k] = b.units[k]) (hagg : c.agg = b.agg)
    (haggr : c.aggr = b.aggr) (hdraws : c.draws = b.draws) : c.block k = b.block k := by
  rw [Board.block, Board.block, hunit, hagg, haggr, hdraws]

/-- Settles O52: the two boards make the same block at k. -/
theorem boardOtherTransceiversAreInvisible : Obligations.BoardOtherTransceiversAreInvisible := by
  intro n b c b' k i hunit hagg haggr hdraws htrace h
  obtain ⟨t, hexec, rfl⟩ := boardExec_eq_next.1 h
  refine ⟨c.withBlock k t, boardExec_eq_next.2 ⟨t, ?_, rfl⟩, ?_, rfl, ?_, fun j hj => withBlock_unit_of_ne c k t hj⟩
  · rw [block_congr hunit hagg haggr hdraws, hexec]
  · rw [withBlock_unit_same, withBlock_unit_same]
  · rw [Board.withBlock, Board.withBlock, htrace]

/-! ## How a board starts -/

/-- RST at one transceiver: it and the aggregator start again, the rest stays (70_reset_and_hazards.md R260; log 11). -/
def resetUnit (k : Fin n) (b : Board n) : Board n :=
  { b with
    aggr := { flag := Vector.replicate 16 false, agg := false }
    units := b.units.set k (Transceiver.ofConfig b.units[k].spi) }

theorem boardExec_rst (k : Fin n) (b : Board n) : boardExec k .rst b = .next (resetUnit k b) := by
  refine boardExec_eq_next.2 ⟨_, exec_rst _, ?_⟩
  simp [Board.withBlock, Board.block, resetBlock, resetUnit, Transceiver.ofConfig, KeyboardState.reset]

theorem resetUnit_units (k j : Fin n) (b : Board n) :
    (resetUnit k b).units[j] = if k = j then Transceiver.ofConfig b.units[j].spi else b.units[j] := by
  by_cases h : k = j
  · subst h; simp [resetUnit]
  · have hkj : k.val ≠ j.val := fun h' => h (Fin.ext h')
    simp [resetUnit, Vector.getElem_set_ne, h, hkj]

/-- RST at the transceivers of a list resets exactly those. -/
theorem boardResetAt_eq (ks : List (Fin n)) (b : Board n) :
    ∃ units : Vector Transceiver n,
      (∀ j : Fin n, units[j] = if j ∈ ks then Transceiver.ofConfig b.units[j].spi else b.units[j]) ∧
      boardResetAt ks b = .next { b with
        aggr := if ks = [] then b.aggr else { flag := Vector.replicate 16 false, agg := false }
        units := units } := by
  induction ks generalizing b with
  | nil => exact ⟨b.units, by simp, rfl⟩
  | cons k ks ih =>
    obtain ⟨units, hunits, hreset⟩ := ih (resetUnit k b)
    refine ⟨units, fun j => ?_, ?_⟩
    · rw [hunits, resetUnit_units]
      by_cases hk : k = j
      · subst hk; simp [Transceiver.ofConfig]
      · simp [hk, Ne.symm hk]
    · rw [boardResetAt, boardExec_rst, andThen_next, hreset]
      cases ks <;> rfl

/-- Settles O59: on a board with a transceiver, RST at every one resets every one and the aggregator. -/
theorem boardStartsThroughReset : Obligations.BoardStartsThroughReset := by
  intro n agg units b k
  refine ⟨?_, ⟨_, boardExec_rst k b, ?_, rfl, rfl⟩, ?_⟩
  · simp [Board.block, Board.ofConfig, Transceiver.ofConfig, State.ofConfig]
  · rw [resetUnit_units, if_pos rfl]
  · obtain ⟨reset, hreset, hrun⟩ := boardResetAt_eq (List.finRange n) b
    have hnonempty : List.finRange n ≠ [] := List.ne_nil_of_mem (List.mem_finRange k)
    have hall : reset = (b.units.map Transceiver.spi).map Transceiver.ofConfig :=
      Vector.ext fun j hj => by simpa using hreset ⟨j, hj⟩
    rw [boardReset, hrun, if_neg hnonempty, hall]
    rfl

end Sys2Proof.Machine
end

section
/-! The assembler reads what the printer writes (30_encoding.md R69, R70; spacing is log 14): a line of a mnemonic and
operands is taken apart at its blank and its comma, and each operand is read back. -/
namespace Sys2Proof.Machine

/-! ## Lines -/

theorem takeWhile_of_all {α : Type} {p : α → Bool} {l : List α} (h : ∀ a ∈ l, p a = true) : l.takeWhile p = l := by
  simpa using List.takeWhile_append_of_pos (l₂ := []) h

theorem dropWhile_of_all {α : Type} {p : α → Bool} {l : List α} (h : ∀ a ∈ l, p a = true) : l.dropWhile p = [] := by
  simpa using List.dropWhile_append_of_pos (l₂ := []) h

/-- A character that neither ends nor separates anything in a line. -/
def isPlain (ch : Char) : Bool := !isBlank ch && decide (ch ≠ ';') && decide (ch ≠ ',')

/-- A nonempty text of plain characters: a mnemonic or an operand. -/
structure PlainText (t : List Char) : Prop where
  nonempty : t ≠ []
  plain : ∀ ch ∈ t, isPlain ch = true

/-- The test for a plain text. -/
def isPlainText (t : List Char) : Bool := !t.isEmpty && t.all isPlain

theorem PlainText.of_test {t : List Char} (h : isPlainText t = true) : PlainText t := by
  obtain ⟨hne, hall⟩ := Bool.and_eq_true_iff.1 h
  exact ⟨by simpa using hne, List.all_eq_true.1 hall⟩

theorem isPlain_iff {ch : Char} : isPlain ch = true ↔ isBlank ch = false ∧ ch ≠ ';' ∧ ch ≠ ',' := by
  simp [isPlain, and_assoc]

theorem PlainText.not_blank {t : List Char} (h : PlainText t) : ∀ ch ∈ t, isBlank ch = false := fun ch hch =>
  (isPlain_iff.1 (h.plain ch hch)).1

theorem PlainText.no_comment {t : List Char} (h : PlainText t) : ∀ ch ∈ t, ch ≠ ';' := fun ch hch =>
  (isPlain_iff.1 (h.plain ch hch)).2.1

theorem PlainText.no_comma {t : List Char} (h : PlainText t) : ',' ∉ t := fun hmem =>
  (isPlain_iff.1 (h.plain _ hmem)).2.2 rfl

theorem dropWhile_isBlank_append {t : List Char} (h : PlainText t) (u : List Char) :
    (t ++ u).dropWhile isBlank = t ++ u := by
  obtain ⟨ch, t', rfl⟩ := List.exists_cons_of_ne_nil h.nonempty
  simp [h.not_blank]

theorem PlainText.reverse {t : List Char} (h : PlainText t) : PlainText t.reverse :=
  ⟨by simpa using h.nonempty, by simpa using h.plain⟩

theorem trim_append {t u : List Char} (ht : PlainText t) (hu : PlainText u) (mid : List Char) :
    trim (t ++ (mid ++ u)) = t ++ (mid ++ u) := by
  have hback := dropWhile_isBlank_append hu.reverse (t ++ mid).reverse
  rw [← List.reverse_append] at hback
  rw [trim, dropWhile_isBlank_append ht, ← List.append_assoc, hback, List.reverse_reverse]

theorem trim_of_plain {t : List Char} (h : PlainText t) : trim t = t := by
  have hfront := dropWhile_isBlank_append h []
  have hback := dropWhile_isBlank_append h.reverse []
  rw [List.append_nil] at hfront hback
  rw [trim, hfront, hback, List.reverse_reverse]

theorem trim_blank_cons {ch : Char} (h : isBlank ch = true) (t : List Char) : trim (ch :: t) = trim t := by
  rw [trim, trim, List.dropWhile_cons, if_pos h]

theorem pieces_of_not_mem {sep : Char} {t : List Char} (h : sep ∉ t) : pieces sep t = [t] := by
  induction t with
  | nil => rfl
  | cons ch t ih =>
    obtain ⟨hch, ht⟩ : sep ≠ ch ∧ sep ∉ t := by simpa using h
    simp [pieces, ih ht, Ne.symm hch]

theorem pieces_ne_nil (sep : Char) (t : List Char) : pieces sep t ≠ [] := by
  cases t with
  | nil => simp [pieces]
  | cons ch t =>
    rw [pieces]
    split
    · simp
    · split <;> simp

theorem pieces_append {sep : Char} {t : List Char} (h : sep ∉ t) (u : List Char) :
    pieces sep (t ++ sep :: u) = t :: pieces sep u := by
  induction t with
  | nil =>
    rw [List.nil_append, pieces]
    split
    · next hnil => exact absurd hnil (pieces_ne_nil sep u)
    · next p ps hps => rw [if_pos rfl, hps]
  | cons ch t ih =>
    obtain ⟨hch, ht⟩ : sep ≠ ch ∧ sep ∉ t := by simpa using h
    simp [pieces, ih ht, Ne.symm hch]

section
variable {name : List Char} (hname : PlainText name) (c : SpiConfig)
include hname

theorem assembleLine_of_name : assembleLine c name = assembleOp c name [] := by
  have hcode : name.takeWhile (fun ch => decide (ch ≠ ';')) = name :=
    takeWhile_of_all (by simpa using hname.no_comment)
  have hword : name.takeWhile (fun ch => !isBlank ch) = name :=
    takeWhile_of_all (by simpa using hname.not_blank)
  have hrest : name.dropWhile (fun ch => !isBlank ch) = [] :=
    dropWhile_of_all (by simpa using hname.not_blank)
  simp only [assembleLine, hcode, trim_of_plain hname, hword, hrest]
  exact if_neg (by simpa using hname.nonempty)

/-- A mnemonic, a blank, and operands that begin and end in plain text. -/
theorem assembleLine_of_operands {args : List Char} (hargs : trim args = args) (hne : args ≠ [])
    (hcomment : ∀ ch ∈ args, ch ≠ ';') (hbody : trim (name ++ ' ' :: args) = name ++ ' ' :: args) :
    assembleLine c (name ++ ' ' :: args) = assembleOp c name ((pieces ',' args).map trim) := by
  have hcode : (name ++ ' ' :: args).takeWhile (fun ch => decide (ch ≠ ';')) = name ++ ' ' :: args := by
    refine takeWhile_of_all fun ch hch => decide_eq_true ?_
    rcases List.mem_append.1 hch with hch | hch
    · exact hname.no_comment ch hch
    · rcases List.mem_cons.1 hch with rfl | hch
      · decide
      · exact hcomment ch hch
  have hword : (name ++ ' ' :: args).takeWhile (fun ch => !isBlank ch) = name := by
    rw [List.takeWhile_append_of_pos (by simpa using hname.not_blank)]
    simp [isBlank]
  have hrest : (name ++ ' ' :: args).dropWhile (fun ch => !isBlank ch) = ' ' :: args := by
    rw [List.dropWhile_append_of_pos (by simpa using hname.not_blank)]
    simp [isBlank]
  simp only [assembleLine, hcode, hbody, hword, hrest, trim_blank_cons (show isBlank ' ' = true by decide), hargs]
  rw [if_neg (by simp), if_neg (by simpa using hne)]

theorem assembleLine_of_operand {a : List Char} (ha : PlainText a) :
    assembleLine c (name ++ ' ' :: a) = assembleOp c name [a] := by
  rw [assembleLine_of_operands hname c (trim_of_plain ha) ha.nonempty ha.no_comment (trim_append hname ha [' ']),
    pieces_of_not_mem ha.no_comma, List.map_singleton, trim_of_plain ha]

theorem assembleLine_of_two_operands {a b : List Char} (ha : PlainText a) (hb : PlainText b) :
    assembleLine c (name ++ ' ' :: (a ++ ',' :: ' ' :: b)) = assembleOp c name [a, b] := by
  have hcomment : ∀ ch ∈ a ++ ',' :: ' ' :: b, ch ≠ ';' := by
    intro ch hch
    simp only [List.mem_append, List.mem_cons] at hch
    rcases hch with hch | rfl | rfl | hch
    · exact ha.no_comment ch hch
    · decide
    · decide
    · exact hb.no_comment ch hch
  have hbody := trim_append hname hb (' ' :: (a ++ [',', ' ']))
  rw [List.cons_append, List.append_assoc] at hbody
  have hsecond : ',' ∉ ' ' :: b := by simpa using hb.no_comma
  have hargs : trim (a ++ ',' :: ' ' :: b) = a ++ ',' :: ' ' :: b := trim_append ha hb [',', ' ']
  rw [assembleLine_of_operands hname c hargs (by simp) hcomment hbody,
    pieces_append ha.no_comma, pieces_of_not_mem hsecond, List.map_cons, List.map_singleton, trim_of_plain ha,
    trim_blank_cons (by decide), trim_of_plain hb]

end

/-! ## Operands -/

theorem digitValue_hexDigit : ∀ n : Fin 16, digitValue (hexDigit n.val) = some n.val := by decide

theorem isPlain_hexDigit : ∀ n : Fin 16, isPlain (hexDigit n.val) = true := by decide

theorem digitsValue_hexDigits (hi lo : Fin 16) :
    digitsValue 16 0 [hexDigit hi.val, hexDigit lo.val] = some (hi.val * 16 + lo.val) := by
  simp [digitsValue, digitValue_hexDigit]

/-- The high and the low hex digit of a byte. -/
def nibbles (b : Byte) : Fin 16 × Fin 16 :=
  (⟨b.toNat / 16, by have := b.isLt; omega⟩, ⟨b.toNat % 16, by omega⟩)

theorem byteArg_hexByte (b : Byte) : byteArg (hexByte b) = some b := by
  have hvalue : numberValue (hexByte b) = some b.toNat := by
    refine (digitsValue_hexDigits (nibbles b).1 (nibbles b).2).trans (congrArg some ?_)
    show b.toNat / 16 * 16 + b.toNat % 16 = b.toNat
    omega
  rw [byteArg, hvalue]
  simp [b.isLt]

theorem plainText_hexByte (b : Byte) : PlainText (hexByte b) := by
  refine ⟨by simp [hexByte], ?_⟩
  have hhi := isPlain_hexDigit (nibbles b).1
  have hlo := isPlain_hexDigit (nibbles b).2
  simp only [hexByte, List.mem_cons, List.not_mem_nil, or_false, forall_eq_or_imp, forall_eq]
  exact ⟨by decide, by decide, hhi, hlo⟩

theorem byteArg_levelChar (v : Level) : byteArg [levelChar v] = some (levelData v) := by
  cases v <;> decide

theorem plainText_levelChar (v : Level) : PlainText [levelChar v] := by
  cases v <;> exact .of_test rfl

theorem numberValue_digit : ∀ n : Fin 10, numberValue [hexDigit n.val] = some n.val := by decide

theorem numberValue_teen : ∀ n : Fin 6, numberValue ['1', hexDigit n.val] = some (10 + n.val) := by decide

theorem numberValue_decimalIndex (i : SrcIdx) : numberValue (decimalIndex i) = some i.val := by
  have hlt := i.isLt
  unfold decimalIndex
  split
  · next h => exact numberValue_digit ⟨i.val, h⟩
  · next h =>
    have hval : 10 + (i.val - 10) = i.val := by omega
    exact (numberValue_teen ⟨i.val - 10, by omega⟩).trans (congrArg some hval)

theorem indexArg_decimalIndex (i : SrcIdx) : indexArg (decimalIndex i) = some i := by
  rw [indexArg, numberValue_decimalIndex]
  exact dif_pos i.isLt

theorem plainText_decimalIndex (i : SrcIdx) : PlainText (decimalIndex i) := by
  have hlt := i.isLt
  unfold decimalIndex
  split
  · exact ⟨List.cons_ne_nil _ _, List.forall_mem_singleton.2 (isPlain_hexDigit i)⟩
  · exact ⟨List.cons_ne_nil _ _, List.forall_mem_cons.2
      ⟨by decide, List.forall_mem_singleton.2 (isPlain_hexDigit ⟨i.val - 10, by omega⟩)⟩⟩

/-! ## Operations -/

theorem assembleOp_of_byteArg {a : List Char} {b : Byte} (c : SpiConfig) (name : List Char) (h : byteArg a = some b) :
    assembleOp c name [a] = oneOperand c name b := by
  simp [assembleOp, h]

theorem assembleLine_level (c : SpiConfig) {name : List Char} (hname : PlainText name) (v : Level) :
    assembleLine c (name ++ ' ' :: [levelChar v]) = oneOperand c name (levelData v) := by
  rw [assembleLine_of_operand hname c (plainText_levelChar v), assembleOp_of_byteArg c name (byteArg_levelChar v)]

theorem assembleLine_byte (c : SpiConfig) {name : List Char} (hname : PlainText name) (b : Byte) :
    assembleLine c (name ++ ' ' :: hexByte b) = oneOperand c name b := by
  rw [assembleLine_of_operand hname c (plainText_hexByte b), assembleOp_of_byteArg c name (byteArg_hexByte b)]

theorem instrText_src (i : SrcIdx) (v : Level) :
    instrText (.src i v) = "SRC".toList ++ ' ' :: (decimalIndex i ++ ',' :: ' ' :: [levelChar v]) := by
  show "SRC ".toList ++ decimalIndex i ++ ", ".toList ++ [levelChar v] = _
  rw [show "SRC ".toList = "SRC".toList ++ [' '] from rfl, show ", ".toList = [',', ' '] from rfl]
  generalize "SRC".toList = name
  simp

theorem assembleLine_src (c : SpiConfig) (i : SrcIdx) (v : Level) :
    assembleLine c ("SRC".toList ++ ' ' :: (decimalIndex i ++ ',' :: ' ' :: [levelChar v])) = some [.src i v] := by
  rw [assembleLine_of_two_operands (.of_test rfl) c (plainText_decimalIndex i)
    (plainText_levelChar v)]
  simp only [assembleOp, indexArg_decimalIndex, byteArg_levelChar]
  exact congrArg (fun l => some [Instr.src i l]) (levelOperand_levelData v)

/-- Settles O53, mnemonic by mnemonic: a printed level is read back through its byte. -/
theorem printedTextAssembles : Obligations.PrintedTextAssembles := by
  intro c i
  cases i with
  | sel v =>
    refine (assembleLine_level c (name := "SEL".toList) (.of_test rfl) v).trans ?_
    exact congrArg (fun l => some [Instr.sel l]) (levelOperand_levelData v)
  | clk v =>
    refine (assembleLine_level c (name := "CLK".toList) (.of_test rfl) v).trans ?_
    exact congrArg (fun l => some [Instr.clk l]) (levelOperand_levelData v)
  | mosi v =>
    refine (assembleLine_level c (name := "MOSI".toList) (.of_test rfl) v).trans ?_
    exact congrArg (fun l => some [Instr.mosi l]) (levelOperand_levelData v)
  | miso => exact assembleLine_of_name (name := "MISO".toList) (.of_test rfl) c
  | arm b => exact assembleLine_byte c (name := "ARM".toList) (.of_test rfl) b
  | src i v =>
    rw [instrText_src, assembleLine_src]
  | irq => exact assembleLine_of_name (name := "IRQ".toList) (.of_test rfl) c
  | kbd b => exact assembleLine_byte c (name := "KBD".toList) (.of_test rfl) b
  | rst => exact assembleLine_of_name (name := "RST".toList) (.of_test rfl) c

end Sys2Proof.Machine
end
